-- ==== Sys2Proof/Word.lean ====
section
/-! DEFINITION. The word types of the block: lanes, operands and patterns as bit vectors (00_scope.md R11). -/

namespace Sys2Proof

/-- A 32-bit vector: a binary32 pattern or the `b` lane (00_scope.md R11, R13). -/
abbrev Word32 := BitVec 32

/-- A 64-bit vector: a binary64 pattern, a lane or a table entry (00_scope.md R11, R13). -/
abbrev Word64 := BitVec 64

/-- The request `REQ = {op, b, a}` (30_encoding.md R60). -/
abbrev Req := BitVec 104

/-- The response `RSP = {status, r2, r1, r0}` as one vector (30_encoding.md R62). -/
abbrev Rsp := BitVec 194

end Sys2Proof
end

