-- ==== Sys2Proof/Config.lean ====
section
/-! DEFINITION. The build-time configuration `cfg` (00_scope.md R6, R7) with the four constant stores
(20_memory.md R40), and the free values of the model. -/

namespace Sys2Proof

/-- `Log2Entry`: one entry of the Log2Table (10_state.md R33). -/
structure Log2Entry where
  invc : Word64
  logc : Word64
deriving DecidableEq, Repr

/-- The configuration fields of 00_scope.md R7. No operation reads a port number or writes any field
(R6, 20_memory.md R42). `LAT` is timing and is left out (log 10). -/
structure Config where
  /-- `BL`, log2 of the Log2Table size: `NL = 2^BL`. -/
  bl : Nat
  /-- `OFF`, the binary32 pattern of `c`, low end of the reduction interval `[c, 2c)`. -/
  off : Word32
  /-- `L2T[i]`. -/
  l2t : List Log2Entry
  /-- `A[0..4]`, `A[0]` of the highest power. -/
  a : Vector Word64 5
  /-- `BE`, log2 of the Exp2Table size: `NE = 2^BE`. -/
  be : Nat
  /-- `E2T[i]`, functional form (20_memory.md R44). -/
  e2t : List Word64
  /-- `C[0..2]`, `C[0]` of the highest power. -/
  c : Vector Word64 3
  /-- `POWF_SCALE`, fixed to 1 (00_scope.md R9). -/
  powfScale : Nat
  /-- `NPORTS`, the number of request ports. -/
  nports : Nat
deriving DecidableEq, Repr

namespace Config

/-- `NL`, the number of entries of the Log2Table (00_scope.md R7). -/
abbrev nl (cfg : Config) : Nat := 2 ^ cfg.bl

/-- `NE`, the number of entries of the Exp2Table (00_scope.md R7). -/
abbrev ne (cfg : Config) : Nat := 2 ^ cfg.be

/-- FREE VALUE (log 8): sign and payload of the quiet binary64 NaN that an invalid operation, or an
operation on a NaN, returns. 41_log2.md R120 (c) gives no payload rule. -/
opaque nan64 (a b : Word64) : Bool × BitVec 51

/-- FREE VALUE (log 8): sign and payload of the quiet binary32 NaN that the HOST's arithmetic returns
(93_implementation_defined.md U11). -/
opaque nan32 (a b : Word32) : Bool × BitVec 22

end Config

end Sys2Proof
end

