-- ==== Sys2Proof/Machine/ConfigWf.lean ====
section
/-! DEFINITION. Well-formed configurations: the third column of the table of 00_scope.md R7 (R8). -/

namespace Sys2Proof

/-- `abs(val64(w)) <= val64(bound)` for a finite `bound >= 0`, on patterns: the magnitude bits compare as the
values do, and a finite bound shuts out infinities and NaNs (00_scope.md R13). -/
def magnitudeLe (w : Word64) (bound : Word64) : Bool := (w &&& 0x7FFFFFFFFFFFFFFF#64).ule bound

/-- The binary64 pattern of 4. -/
def four64 : Word64 := 0x4010000000000000#64

/-- The binary64 pattern of 2. -/
def two64 : Word64 := 0x4000000000000000#64

/-- `0x00800000 <= OFF <= 0x7F000000`. -/
def Config.offOk (cfg : Config) : Bool := (0x00800000#32).ule cfg.off && cfg.off.ule 0x7F000000#32

/-- `NL` entries, each finite with `abs(invc) <= 4` and `abs(logc) <= 2`. -/
def Config.l2tOk (cfg : Config) : Bool :=
  decide (cfg.l2t.length = cfg.nl) && cfg.l2t.all (fun e => magnitudeLe e.invc four64 && magnitudeLe e.logc two64)

/-- `A[0..4]` finite with `abs <= 4`. -/
def Config.aOk (cfg : Config) : Bool := cfg.a.toList.all (magnitudeLe · four64)

/-- `NE` entries, each with sign bit 0 and exponent field 0x3FF. -/
def Config.e2tOk (cfg : Config) : Bool :=
  decide (cfg.e2t.length = cfg.ne) && cfg.e2t.all (fun e => e.extractLsb' 52 12 == 0x3FF#12)

/-- `C[0..2]` finite with `abs <= 4`. -/
def Config.cOk (cfg : Config) : Bool := cfg.c.toList.all (magnitudeLe · four64)

/-- Every constraint of the third column of 00_scope.md R7 holds (R8), and `POWF_SCALE = 1` (R9). -/
def Config.wf (cfg : Config) : Bool :=
  decide (cfg.bl ≤ 16) && cfg.offOk && cfg.l2tOk && cfg.aOk && decide (cfg.be ≤ 16) && cfg.e2tOk && cfg.cOk &&
    decide (cfg.powfScale = 1) && decide (1 ≤ cfg.nports)

end Sys2Proof
end

