-- ==== Sys2Proof/Syntax.lean ====
section
/-! DEFINITION. The operations of OPS-1 as syntax: one constructor per row of spec/opcode_table.json
(30_encoding.md R64, R70). -/

namespace Sys2Proof

/-- A request that decoding accepts, with its operands as 30_encoding.md R68 interprets them: `ix`, `iy`
binary32 patterns, `eofs` and `k` signed integers, `sb` the SignBias bit, `xd` a binary64 pattern. -/
inductive Instr where
  /-- `ZINFNAN ix`, 40_classifier.md R101. -/
  | zinfnan (ix : Word32)
  /-- `CHKINT ix`, 40_classifier.md R103. -/
  | chkint (iy : Word32)
  /-- `FCLASS ix`, 40_classifier.md R105. -/
  | fclass (ix : Word32)
  /-- `RCPLK ix`, 41_log2.md R126. -/
  | rcplk (ix : Word32)
  /-- `LOG2 ix, eofs`, 41_log2.md R129. -/
  | log2 (ix : Word32) (eofs : Int)
  /-- `EXPCON k, sb`, 42_exp2.md R154. -/
  | expcon (k : Int) (sb : Bool)
  /-- `EXP2 xd, sb`, 42_exp2.md R156. -/
  | exp2 (xd : Word64) (sb : Bool)
deriving DecidableEq, Repr

end Sys2Proof
end

