-- ==== Sys2Proof/WellFormed.lean ====
section
/-! DEFINITION. Which terms of `Instr` a request can carry: the signed operands fit their 32-bit lanes
(30_encoding.md R61, R68). -/

namespace Sys2Proof

/-- `n` is a value of `sint` on 32 bits: `-2^31 <= n < 2^31` (00_scope.md R11). -/
def fitsSint32 (n : Int) : Bool := decide (-2 ^ 31 ≤ n) && decide (n < 2 ^ 31)

/-- The operands an encoding admits. -/
def Instr.wf : Instr → Bool
  | .zinfnan _ => true
  | .chkint _ => true
  | .fclass _ => true
  | .rcplk _ => true
  | .log2 _ eofs => fitsSint32 eofs
  | .expcon k _ => fitsSint32 k
  | .exp2 _ _ => true

end Sys2Proof
end

