-- ==== Sys2Proof/Decode.lean ====
section
/-! DEFINITION. Requests and their encoding (30_encoding.md R60, R61, R64 to R68): the fields of a request,
the total decoder with its two reasons for rejecting, the encoder, and the opcode table as mask and match. -/

namespace Sys2Proof

/-- `op = REQ[103:96]` (30_encoding.md R60). -/
def Req.op (r : Req) : BitVec 8 := r.extractLsb' 96 8

/-- `b = REQ[95:64]` (30_encoding.md R60). -/
def Req.b (r : Req) : Word32 := r.extractLsb' 64 32

/-- `a = REQ[63:0]` (30_encoding.md R60). -/
def Req.a (r : Req) : Word64 := r.extractLsb' 0 64

/-- `a[63:32]`, zero in the formats F32, F32E and K32S (30_encoding.md R66). -/
def Req.aHi (r : Req) : Word32 := r.extractLsb' 32 32

/-- `a[31:0]`. -/
def Req.aLo (r : Req) : Word32 := r.extractLsb' 0 32

/-- `b[31:1]`, zero in the formats F32, K32S and F64S (30_encoding.md R66). -/
def Req.bHi (r : Req) : BitVec 31 := r.extractLsb' 65 31

/-- `b[0]`, the SignBias of the formats K32S and F64S (30_encoding.md R61). -/
def Req.sb (r : Req) : Bool := r.getLsbD 64

/-- `REQ = {op, b, a}` (30_encoding.md R60, R70). -/
def Req.pack (op : BitVec 8) (b : Word32) (a : Word64) : Req := op ++ b ++ a

/-- Why decoding rejects a request: the two causes of `ILLEGAL` (60_exceptions.md R211). -/
inductive DecodeError where
  /-- `req.op` is 0x00 or 0x08 to 0xFF (30_encoding.md R67). -/
  | reservedOp
  /-- A bit that the operation's format requires to be zero is not zero (30_encoding.md R66). -/
  | reservedBits
deriving DecidableEq, Repr

/-- Format F32: `a[63:32]` and all of `b` are zero (30_encoding.md R61). -/
def formatF32 (r : Req) (mk : Word32 → Instr) : Except DecodeError Instr :=
  if r.aHi = 0 ∧ r.b = 0 then .ok (mk r.aLo) else .error .reservedBits

/-- Format F32E: `a[63:32]` is zero, `b` is the signed exponent offset. -/
def formatF32E (r : Req) (mk : Word32 → Int → Instr) : Except DecodeError Instr :=
  if r.aHi = 0 then .ok (mk r.aLo r.b.toInt) else .error .reservedBits

/-- Format K32S: `a[63:32]` and `b[31:1]` are zero, `a[31:0]` is a signed integer, `b[0]` the SignBias. -/
def formatK32S (r : Req) (mk : Int → Bool → Instr) : Except DecodeError Instr :=
  if r.aHi = 0 ∧ r.bHi = 0 then .ok (mk r.aLo.toInt r.sb) else .error .reservedBits

/-- Format F64S: `b[31:1]` is zero, `a` is a binary64 pattern, `b[0]` the SignBias. -/
def formatF64S (r : Req) (mk : Word64 → Bool → Instr) : Except DecodeError Instr :=
  if r.bHi = 0 then .ok (mk r.a r.sb) else .error .reservedBits

/-- Steps 1 and 2 of 30_encoding.md R65, on any request: the opcode map R64, then the reserved bits. -/
def decode (r : Req) : Except DecodeError Instr :=
  if r.op = 0x01#8 then formatF32 r .zinfnan
  else if r.op = 0x02#8 then formatF32 r .chkint
  else if r.op = 0x03#8 then formatF32 r .fclass
  else if r.op = 0x04#8 then formatF32 r .rcplk
  else if r.op = 0x05#8 then formatF32E r .log2
  else if r.op = 0x06#8 then formatK32S r .expcon
  else if r.op = 0x07#8 then formatF64S r .exp2
  else .error .reservedOp

/-- A lane that holds a 32-bit operand in its low half (30_encoding.md R61). -/
def laneA32 (v : Word32) : Word64 := v.setWidth 64

/-- The `b` lane that holds the SignBias in bit 0 (30_encoding.md R61). -/
def laneSb (sb : Bool) : Word32 := (BitVec.ofBool sb).setWidth 32

/-- The request of an instruction (30_encoding.md R61, R64, R70). -/
def encode : Instr → Req
  | .zinfnan ix => Req.pack 0x01#8 0 (laneA32 ix)
  | .chkint iy => Req.pack 0x02#8 0 (laneA32 iy)
  | .fclass ix => Req.pack 0x03#8 0 (laneA32 ix)
  | .rcplk ix => Req.pack 0x04#8 0 (laneA32 ix)
  | .log2 ix eofs => Req.pack 0x05#8 (BitVec.ofInt 32 eofs) (laneA32 ix)
  | .expcon k sb => Req.pack 0x06#8 (laneSb sb) (laneA32 (BitVec.ofInt 32 k))
  | .exp2 xd sb => Req.pack 0x07#8 (laneSb sb) xd

/-- One row of the opcode table: a request selects it when `REQ & mask = match` (30_encoding.md R64). -/
structure OpcodeRow where
  mnemonic : String
  matchBits : Req
  mask : Req
deriving DecidableEq, Repr

/-- spec/opcode_table.json, row by row (30_encoding.md R64). -/
def opcodeTable : List OpcodeRow :=
  [ ⟨"ZINFNAN", 0x01000000000000000000000000#104, 0xFFFFFFFFFFFFFFFFFF00000000#104⟩,
    ⟨"CHKINT", 0x02000000000000000000000000#104, 0xFFFFFFFFFFFFFFFFFF00000000#104⟩,
    ⟨"FCLASS", 0x03000000000000000000000000#104, 0xFFFFFFFFFFFFFFFFFF00000000#104⟩,
    ⟨"RCPLK", 0x04000000000000000000000000#104, 0xFFFFFFFFFFFFFFFFFF00000000#104⟩,
    ⟨"LOG2", 0x05000000000000000000000000#104, 0xFF00000000FFFFFFFF00000000#104⟩,
    ⟨"EXPCON", 0x06000000000000000000000000#104, 0xFFFFFFFFFEFFFFFFFF00000000#104⟩,
    ⟨"EXP2", 0x07000000000000000000000000#104, 0xFFFFFFFFFE0000000000000000#104⟩ ]

/-- The mnemonic of an instruction (30_encoding.md R64). -/
def Instr.mnemonic : Instr → String
  | .zinfnan _ => "ZINFNAN"
  | .chkint _ => "CHKINT"
  | .fclass _ => "FCLASS"
  | .rcplk _ => "RCPLK"
  | .log2 _ _ => "LOG2"
  | .expcon _ _ => "EXPCON"
  | .exp2 _ _ => "EXP2"

/-- The row of an instruction: the one with its mnemonic. -/
def Instr.row? (i : Instr) : Option OpcodeRow := opcodeTable.find? (fun r => r.mnemonic == i.mnemonic)

/-- The request that the opcode table's numbering gives: the table numbers a request as the one vector
`REQ[103:0]`, so bit 0 of `w` is `REQ[0]`, and every bit at `nbits` or above is zero. -/
def tableRequest (nbits w : Nat) : Req := BitVec.ofNat 104 (w % 2 ^ nbits)

/-- The instruction the decoder reads from a table word: none where it refuses, and none for a number of more
than 104 bits, which is no request (30_encoding.md R60). -/
def decodeTableWord (nbits w : Nat) : Option Instr :=
  if w % 2 ^ nbits < 2 ^ 104 then (decode (tableRequest nbits w)).toOption else none

end Sys2Proof
end

