-- ==== Sys2Proof/Machine/Float.lean ====
section
/-! DEFINITION. IEEE-754 patterns and the binary64 primitives (00_scope.md R13 to R15; 41_log2.md R120, R121):
operands are unpacked to exact integers, the result is computed exactly, and one rounding packs it. -/

namespace Sys2Proof

/-- A finite value `(-1)^neg * sig * 2^exp`, exactly. -/
structure Unpacked where
  neg : Bool
  sig : Nat
  exp : Int
deriving DecidableEq, Repr

namespace Machine

/-- Round to nearest, ties to even: the integer nearest to `m / 2^d`. -/
def rneShift (m d : Nat) : Nat :=
  if 2 * (m % 2 ^ d) < 2 ^ d ∨ (2 * (m % 2 ^ d) = 2 ^ d ∧ m / 2 ^ d % 2 = 0) then m / 2 ^ d else m / 2 ^ d + 1

/-- The exponent of the unit in the last place of a subnormal number, `1 - bias - p`, of the format with `p`
fraction bits and `w` exponent bits: -1074 for binary64, -149 for binary32 (00_scope.md R13). -/
def minExp (p w : Nat) : Int := 2 - 2 ^ (w - 1) - p

/-- The magnitude bits of infinity in the format: exponent field all ones, fraction zero. -/
def infMag (p w : Nat) : Nat := (2 ^ w - 1) * 2 ^ p

/-- The exponent of the unit in the last place to which `m * 2^e` is rounded: that of the format's grid at
this magnitude, and never below the subnormal grid. -/
def ulpExp (p w m : Nat) (e : Int) : Int := max (e + (Nat.log2 m : Int) - p) (minExp p w)

/-- `m * 2^e` counted in units `2^u`, rounded to the nearest integer, ties to even; exact where `u <= e`. -/
def scaledRne (m : Nat) (e u : Int) : Nat :=
  if u ≤ e then m * 2 ^ (e - u).toNat else rneShift m (u - e).toNat

/-- The magnitude bits of `m * 2^e` rounded to nearest, ties to even; infinity from `2^emax` up
(41_log2.md R120 (a)). A significand that rounds up to `2^(p+1)` carries into the exponent field. -/
def roundMag (p w m : Nat) (e : Int) : Nat :=
  if m = 0 then 0
  else
    let u := ulpExp p w m e
    min ((u - minExp p w).toNat * 2 ^ p + scaledRne m e u) (infMag p w)

/-- The binary64 pattern of `(-1)^neg * m * 2^e`, rounded once; a zero keeps the sign (41_log2.md R120 (a)). -/
def round64 (neg : Bool) (m : Nat) (e : Int) : Word64 :=
  BitVec.ofBool neg ++ BitVec.ofNat 63 (roundMag 52 11 m e)

/-- The binary32 pattern of `(-1)^neg * m * 2^e`, rounded once. Host arithmetic only (45_host_dispatcher.md R194). -/
def round32 (neg : Bool) (m : Nat) (e : Int) : Word32 :=
  BitVec.ofBool neg ++ BitVec.ofNat 31 (roundMag 23 8 m e)

/-- Biased exponent field of a binary64 pattern, bits 62:52 (00_scope.md R13). -/
def expField64 (b : Word64) : Nat := (b.extractLsb' 52 11).toNat

/-- Mantissa field of a binary64 pattern, bits 51:0 (00_scope.md R13). -/
def fracField64 (b : Word64) : Nat := (b.extractLsb' 0 52).toNat

/-- Biased exponent field of a binary32 pattern, bits 30:23 (00_scope.md R13). -/
def expField32 (b : Word32) : Nat := (b.extractLsb' 23 8).toNat

/-- Mantissa field of a binary32 pattern, bits 22:0 (00_scope.md R13). -/
def fracField32 (b : Word32) : Nat := (b.extractLsb' 0 23).toNat

/-- The magnitude bits of a binary64 pattern: all but the sign. -/
def mag64 (b : Word64) : Word64 := b &&& 0x7FFFFFFFFFFFFFFF#64

/-- The magnitude bits of a binary32 pattern: all but the sign. -/
def mag32 (b : Word32) : Word32 := b &&& 0x7FFFFFFF#32

/-- A NaN: exponent field all ones, mantissa not zero (00_scope.md R13). -/
def isNaN64 (b : Word64) : Bool := expField64 b == 2047 && fracField64 b != 0

/-- An infinity: exponent field all ones, mantissa zero (00_scope.md R13). -/
def isInf64 (b : Word64) : Bool := expField64 b == 2047 && fracField64 b == 0

/-- A finite pattern: exponent field not all ones (00_scope.md R13). -/
def isFinite64 (b : Word64) : Bool := expField64 b != 2047

/-- A NaN: exponent field all ones, mantissa not zero (00_scope.md R13). -/
def isNaN32 (b : Word32) : Bool := expField32 b == 255 && fracField32 b != 0

/-- An infinity: exponent field all ones, mantissa zero (00_scope.md R13). -/
def isInf32 (b : Word32) : Bool := expField32 b == 255 && fracField32 b == 0

/-- A finite pattern: exponent field not all ones (00_scope.md R13). -/
def isFinite32 (b : Word32) : Bool := expField32 b != 255

/-- The value of a finite binary64 pattern (00_scope.md R13). -/
def unpack64 (b : Word64) : Unpacked :=
  if expField64 b = 0 then ⟨b.msb, fracField64 b, -1074⟩
  else ⟨b.msb, 2 ^ 52 + fracField64 b, expField64 b - 1075⟩

/-- The value of a finite binary32 pattern (00_scope.md R13). -/
def unpack32 (b : Word32) : Unpacked :=
  if expField32 b = 0 then ⟨b.msb, fracField32 b, -149⟩
  else ⟨b.msb, 2 ^ 23 + fracField32 b, expField32 b - 150⟩

/-- `sig` with its sign. -/
def signedSig (u : Unpacked) : Int := if u.neg then -(u.sig : Int) else u.sig

/-- A quiet NaN with free sign and payload (log 8): no well-formed configuration reaches it
(41_log2.md R120 (c), R131; 42_exp2.md R159). -/
def quietNaN64 (a b : Word64) : Word64 :=
  BitVec.ofBool (Config.nan64 a b).1 ++ (0x7FF#11 ++ (1#1 ++ (Config.nan64 a b).2))

/-- The sum of two finite values: the exact sum over the smaller exponent, rounded once; a zero sum is -0 only when
both operands are -0 (41_log2.md R120 (a), (b)). -/
def faddFinite (a b : Word64) : Word64 :=
  let x := unpack64 a
  let y := unpack64 b
  let e := min x.exp y.exp
  let v := signedSig x * 2 ^ (x.exp - e).toNat + signedSig y * 2 ^ (y.exp - e).toNat
  if v = 0 then round64 (x.neg && y.neg && x.sig == 0 && y.sig == 0) 0 0 else round64 (decide (v < 0)) v.natAbs e

/-- `fadd(a, b)` (41_log2.md R120). -/
def fadd (a b : Word64) : Word64 :=
  if isNaN64 a || isNaN64 b then quietNaN64 a b
  else if isInf64 a then (if isInf64 b && a.msb != b.msb then quietNaN64 a b else a)
  else if isInf64 b then b
  else faddFinite a b

/-- `b` with its sign bit flipped. -/
def fneg (b : Word64) : Word64 := b ^^^ 0x8000000000000000#64

/-- `fsub(a, b)` is `fadd(a, b')` with `b'` equal to `b` with its sign bit flipped (41_log2.md R120 (b)). -/
def fsub (a b : Word64) : Word64 := fadd a (fneg b)

/-- The product of two finite values, rounded once; a zero product has the exclusive or of the signs
(41_log2.md R120 (a), (b)). -/
def fmulFinite (a b : Word64) : Word64 :=
  let x := unpack64 a
  let y := unpack64 b
  round64 (x.neg ^^ y.neg) (x.sig * y.sig) (x.exp + y.exp)

/-- The infinity with the given sign. -/
def inf64 (neg : Bool) : Word64 := BitVec.ofBool neg ++ 0x7FF0000000000000#63

/-- `fmul(a, b)` (41_log2.md R120). -/
def fmul (a b : Word64) : Word64 :=
  if isNaN64 a || isNaN64 b then quietNaN64 a b
  else if isInf64 a || isInf64 b then
    (if mag64 a == 0 || mag64 b == 0 then quietNaN64 a b else inf64 (a.msb ^^ b.msb))
  else fmulFinite a b

/-- `ONE`, the binary64 pattern of 1 (41_log2.md R121). -/
def one64 : Word64 := 0x3FF0000000000000#64

/-- `f32_to_f64(p)` for a finite binary32 pattern, exact (41_log2.md R121). On an infinity or a NaN, where no rule
uses it, the binary64 infinity of the same sign or a quiet NaN (log 8). -/
def f32ToF64 (p : Word32) : Word64 :=
  if isNaN32 p then quietNaN64 (p.setWidth 64) (p.setWidth 64)
  else if isInf32 p then inf64 p.msb
  else round64 (unpack32 p).neg (unpack32 p).sig (unpack32 p).exp

/-- The binary64 pattern of `n * 2^e`, +0 for `n = 0` (41_log2.md R121, 42_exp2.md R155). -/
def scaledIntToF64 (n e : Int) : Word64 := round64 (decide (n < 0)) n.natAbs e

/-- `int_to_f64(n)`, exact for `abs(n) < 2^53` (41_log2.md R121). -/
def intToF64 (n : Int) : Word64 := scaledIntToF64 n 0

end Machine

end Sys2Proof
end

