-- ==== Sys2Proof/Machine/Rc0.lean ====
section
/-! DEFINITION. The reference configuration RC0 (00_scope.md R7; 41_log2.md R122, R123; 42_exp2.md R151, R152):
a test instance, and the configuration of `State.reset` (log 1). -/

namespace Sys2Proof

/-- The Log2Table of RC0 (41_log2.md R122). -/
def rc0L2T : List Log2Entry :=
  [ ⟨0x3FF661EC79F8F3BE#64, 0xBFDEFEC65B963019#64⟩,
    ⟨0x3FF571ED4AAF883D#64, 0xBFDB0B6832D4FCA4#64⟩,
    ⟨0x3FF49539F0F010B0#64, 0xBFD7418B0A1FB77B#64⟩,
    ⟨0x3FF3C995B0B80385#64, 0xBFD39DE91A6DCF7B#64⟩,
    ⟨0x3FF30D190C8864A5#64, 0xBFD01D9BF3F2B631#64⟩,
    ⟨0x3FF25E227B0B8EA0#64, 0xBFC97C1D1B3B7AF0#64⟩,
    ⟨0x3FF1BB4A4A1A343F#64, 0xBFC2F9E393AF3C9F#64⟩,
    ⟨0x3FF12358F08AE5BA#64, 0xBFB960CBBF788D5C#64⟩ ] ++
  [ ⟨0x3FF0953F419900A7#64, 0xBFAA6F9DB6475FCE#64⟩,
    ⟨0x3FF0000000000000#64, 0x0000000000000000#64⟩,
    ⟨0x3FEE608CFD9A47AC#64, 0x3FB338CA9F24F53D#64⟩,
    ⟨0x3FECA4B31F026AA0#64, 0x3FC476A9543891BA#64⟩,
    ⟨0x3FEB2036576AFCE6#64, 0x3FCE840B4AC4E4D2#64⟩,
    ⟨0x3FE9C2D163A1AA2D#64, 0x3FD40645F0C6651C#64⟩,
    ⟨0x3FE886E6037841ED#64, 0x3FD88E9C2C1B9FF8#64⟩,
    ⟨0x3FE767DCF5534862#64, 0x3FDCE0A44EB17BCC#64⟩ ]

/-- The log2 coefficients `A[0..4]` of RC0 (41_log2.md R123). -/
def rc0A : Vector Word64 5 :=
  #v[0x3FD27616C9496E0B#64, 0xBFD71969A075C67A#64, 0x3FDEC70A6CA7BADD#64, 0xBFE7154748BEF6C8#64,
     0x3FF71547652AB82B#64]

/-- The Exp2Table of RC0 in functional form (42_exp2.md R151). -/
def rc0E2T : List Word64 :=
  [ 0x3FF0000000000000#64, 0x3FF059B0D3158574#64, 0x3FF0B5586CF9890F#64, 0x3FF11301D0125B51#64,
    0x3FF172B83C7D517B#64, 0x3FF1D4873168B9AA#64, 0x3FF2387A6E756238#64, 0x3FF29E9DF51FDEE1#64 ] ++
  [ 0x3FF306FE0A31B715#64, 0x3FF371A7373AA9CB#64, 0x3FF3DEA64C123422#64, 0x3FF44E086061892D#64,
    0x3FF4BFDAD5362A27#64, 0x3FF5342B569D4F82#64, 0x3FF5AB07DD485429#64, 0x3FF6247EB03A5585#64 ] ++
  [ 0x3FF6A09E667F3BCD#64, 0x3FF71F75E8EC5F74#64, 0x3FF7A11473EB0187#64, 0x3FF82589994CCE13#64,
    0x3FF8ACE5422AA0DB#64, 0x3FF93737B0CDC5E5#64, 0x3FF9C49182A3F090#64, 0x3FFA5503B23E255D#64 ] ++
  [ 0x3FFAE89F995AD3AD#64, 0x3FFB7F76F2FB5E47#64, 0x3FFC199BDD85529C#64, 0x3FFCB720DCEF9069#64,
    0x3FFD5818DCFBA487#64, 0x3FFDFC97337B9B5F#64, 0x3FFEA4AFA2A490DA#64, 0x3FFF50765B6E4540#64 ]

/-- The exp2 coefficients `C[0..2]` of RC0 (42_exp2.md R152). -/
def rc0C : Vector Word64 3 := #v[0x3FAC6AF84B912394#64, 0x3FCEBFCE50FAC4F3#64, 0x3FE62E42FF0C52D6#64]

/-- RC0 (00_scope.md R7). `NPORTS` is open in the spec: 1 here, log 2. -/
def rc0 : Config where
  bl := 4
  off := 0x3F330000#32
  l2t := rc0L2T
  a := rc0A
  be := 5
  e2t := rc0E2T
  c := rc0C
  powfScale := 1
  nports := 1

end Sys2Proof
end

