-- ==== Sys2Proof/Machine/State.lean ====
section
/-! DEFINITION. The state of the block (10_state.md): its constant stores and the transactions. No register,
counter, flag or memory exists besides (R20 to R25). -/

namespace Sys2Proof.Machine

/-- The response status (30_encoding.md R62, 60_exceptions.md R213). Code 3 is never produced, so it is no value. -/
inductive Status where
  | ok
  | illegal
  | ooc
deriving DecidableEq, Repr

/-- The two fault codes of the block (60_exceptions.md R211, R212). -/
inductive FaultCode where
  | illegal
  | ooc
deriving DecidableEq, Repr

/-- `Class` (10_state.md R30). -/
inductive FpClass where
  | zero
  | infinite
  | nan
  | finiteNonzero
deriving DecidableEq, Repr

/-- `Integrality` (10_state.md R31). -/
inductive Integrality where
  | notInteger
  | oddInteger
  | evenInteger
deriving DecidableEq, Repr

/-- The lanes of a response (30_encoding.md R62). -/
structure Response where
  status : Status
  r0 : Word64
  r1 : Word64
  r2 : Word64
deriving DecidableEq, Repr

/-- A request accepted on a port and not yet answered (10_state.md R26, R28). -/
structure Pending where
  port : Nat
  req : Req
deriving DecidableEq, Repr

/-- A response delivered on a port (70_reset_and_hazards.md R248). -/
structure Delivered where
  port : Nat
  rsp : Response
deriving DecidableEq, Repr

/-- The state of the block. -/
structure State where
  /-- The configuration, with the constant stores (00_scope.md R7, 10_state.md R27). -/
  cfg : Config
  /-- The requests in flight, the one being performed first (10_state.md R26, R28; log 4). Their number
  has no bound: DESIGN CHOICE, log 13. -/
  requests : List Pending
  /-- The responses delivered so far, oldest first: the model's record of its output (log 5). -/
  responses : List Delivered
  /-- Reset has been asserted and not yet taken (70_reset_and_hazards.md R240; log 6). -/
  resetPending : Bool
deriving DecidableEq, Repr

/-- Where the machine stops with a fault. The spec's own faults `ILLEGAL` and `OOC` are responses, not these. -/
inductive Fault where
  /-- Raised by a meaning run where no request is in flight: there is no transaction to answer (R17). `step` never
  reaches it. Safe: the model stops (log 7). -/
  | noRequest
  /-- Raised by `step` when the request in front carries a port that does not exist (60_exceptions.md R222). No state
  that meets the invariant reaches it. Safe: the model stops (log 7). -/
  | noSuchPort
deriving DecidableEq, Repr

/-- Where the model gives no meaning. -/
inductive Refusal where
  /-- An instruction that has no meaning yet, by its mnemonic. Raised only by `exec`'s refused arms. Safe. -/
  | notModelled (mnemonic : String)
  /-- Raised by `step`, and by a table read with no entry, when the configuration is not well formed
  (00_scope.md R8). Safe: the model stops (log 3). -/
  | illFormedConfig
deriving DecidableEq, Repr

/-- The outcome of a step of this machine. -/
abbrev Result := Host.Outcome State Fault Refusal

/-- What the block finds when it looks for its next transaction. -/
inductive Fetched where
  /-- No request is in flight. -/
  | idle
  /-- The request in front came on a port that does not exist. -/
  | badPort
  /-- The request to perform. -/
  | request (req : Req)
deriving DecidableEq, Repr

/-- After reset no request is in flight (10_state.md R29, 70_reset_and_hazards.md R241); the constant stores are
whatever the build made them, RC0 here (log 1). -/
def State.reset : State where
  cfg := rc0
  requests := []
  responses := []
  resetPending := false

end Sys2Proof.Machine
end

