-- ==== Sys2Proof/Machine/Flags.lean ====
section
/-! DEFINITION. The block stores no flag (10_state.md R22, R23). What stands here are the codes of the values that
cross the interface: predicate, Class, Integrality, status, SignBias (10_state.md R30 to R32, 60_exceptions.md R213). -/

namespace Sys2Proof.Machine

/-- The code of a `Class` (10_state.md R30). -/
def classCode : FpClass → Word64
  | .zero => 0
  | .infinite => 1
  | .nan => 2
  | .finiteNonzero => 3

/-- The code of an `Integrality` (10_state.md R31). -/
def integralityCode : Integrality → Word64
  | .notInteger => 0
  | .oddInteger => 1
  | .evenInteger => 2

/-- A predicate in bit 0 of a lane (30_encoding.md R63). -/
def predicateCode (p : Bool) : Word64 := (BitVec.ofBool p).setWidth 64

/-- The two status bits (30_encoding.md R62). -/
def statusCode : Status → BitVec 2
  | .ok => 0
  | .illegal => 1
  | .ooc => 2

/-- The status that a fault code puts in the response (60_exceptions.md R210, R213). -/
def faultStatus : FaultCode → Status
  | .illegal => .illegal
  | .ooc => .ooc

/-- The SignBias in the sign bit of a 64-bit pattern: `zext_64(sb) << 63` (42_exp2.md R154). -/
def signBias (sb : Bool) : Word64 := (BitVec.ofBool sb).setWidth 64 <<< 63

end Sys2Proof.Machine
end

