-- ==== Sys2Proof/Machine/Ops.lean ====
section
/-! DEFINITION. The operations the meanings share: answering the transaction in front, the fault response
(60_exceptions.md R210), reads of the constant stores (20_memory.md R41), reset (70_reset_and_hazards.md R241), and
what the outside does: submit a request, assert reset, read a port's responses. -/

namespace Sys2Proof.Machine

/-- A response with status `OK` (30_encoding.md R63). -/
def okResponse (r0 r1 r2 : Word64) : Response := ⟨.ok, r0, r1, r2⟩

/-- The response of `raise Fault(code)`: all three lanes zero (60_exceptions.md R210). -/
def faultResponse (code : FaultCode) : Response := ⟨faultStatus code, 0, 0, 0⟩

/-- The 194-bit response vector `{status, r2, r1, r0}` (30_encoding.md R62). -/
def Response.toBits (r : Response) : Rsp := statusCode r.status ++ (r.r2 ++ (r.r1 ++ r.r0))

/-- The state after the transaction `p` in front has been answered with `rsp`: `p` is no longer in flight, its port
has one more response, and nothing else changed (00_scope.md R17, 70_reset_and_hazards.md R248). -/
def State.answered (s : State) (p : Pending) (rest : List Pending) (rsp : Response) : State :=
  { s with requests := rest, responses := s.responses ++ [⟨p.port, rsp⟩] }

/-- Ends the transaction in front with a response. With none in front there is nothing to answer (log 7). -/
def complete (rsp : Response) (s : State) : Result :=
  match s.requests with
  | [] => .fault .noRequest
  | p :: rest => .next (s.answered p rest rsp)

/-- `raise Fault(code)`: TAKING A FAULT, the block's whole trap architecture (60_exceptions.md R210, R215). The fault
response is the entire effect: no state is saved and control goes nowhere, so there is no return (R216). -/
def raiseFault (code : FaultCode) (s : State) : Result := complete (faultResponse code) s

/-- `MemRead(L2T[i].invc, 64)` and `MemRead(L2T[i].logc, 64)`: one entry, read whole (20_memory.md R41, R47). None where
the store has no entry `i`, which no well-formed configuration reaches. -/
def memReadL2T (cfg : Config) (i : Nat) : Option Log2Entry := cfg.l2t[i]?

/-- `MemRead(E2T[i], 64)` (20_memory.md R41, R47). -/
def memReadE2T (cfg : Config) (i : Nat) : Option Word64 := cfg.e2t[i]?

/-- `MemRead(A[j], 64)` (20_memory.md R41). -/
def memReadA (cfg : Config) (j : Fin 5) : Word64 := cfg.a[j]

/-- `MemRead(C[j], 64)` (20_memory.md R41). -/
def memReadC (cfg : Config) (j : Fin 3) : Word64 := cfg.c[j]

/-- Ends the transaction with `OK r0` when the tables gave a value, and refuses the configuration when a table had no
entry to read (00_scope.md R8, log 3). -/
def completeRead (r0 : Option Word64) (s : State) : Result :=
  match r0 with
  | none => .refused .illFormedConfig
  | some y => complete (okResponse y 0 0) s

/-- The transaction the block takes up next (00_scope.md R17; log 4, log 7). -/
def fetch (s : State) : Fetched :=
  match s.requests with
  | [] => .idle
  | p :: _ => if p.port < s.cfg.nports then .request p.req else .badPort

/-- Reset: every request in flight is dropped and gets no response; the constant stores are unchanged
(70_reset_and_hazards.md R241). -/
def takeReset (s : State) : State := { s with requests := [], resetPending := false }

/-- The outside asserts reset (70_reset_and_hazards.md R240; log 6). -/
def State.assertReset (s : State) : State := { s with resetPending := true }

/-- The outside submits a request on a port, and the block accepts it; a port that does not exist accepts nothing
(70_reset_and_hazards.md R242, R247, R248). DESIGN CHOICE (log 13): any number of requests may be in flight on a port,
so none is ever turned away for want of room; R247 leaves that number to the implementation. -/
def State.submit (s : State) (port : Nat) (req : Req) : State :=
  if port < s.cfg.nports then { s with requests := s.requests ++ [⟨port, req⟩] } else s

/-- The responses delivered on a port, in order (70_reset_and_hazards.md R248 (b)). -/
def State.responsesOn (s : State) (port : Nat) : List Response :=
  (s.responses.filter (fun d => d.port == port)).map (·.rsp)

/-- The requests in flight on a port, in order (70_reset_and_hazards.md R248 (b)). -/
def State.requestsOn (s : State) (port : Nat) : List Req :=
  (s.requests.filter (fun p => p.port == port)).map (·.req)

end Sys2Proof.Machine
end

