-- ==== Sys2Proof/Machine/Classifier.lean ====
section
/-! DEFINITION. The `ieee754_classifier` unit (40_classifier.md): ZINFNAN, CHKINT, FCLASS. -/

namespace Sys2Proof.Machine

/-- `EXP_MASK` (40_classifier.md R100). -/
def expMask : Word32 := 0x7F800000#32

/-- The zero-inf-nan predicate: `2*bits - 1 >= 2*EXP_MASK - 1`, unsigned, modulo `2^32` (40_classifier.md R101). -/
def zeroInfNan (ix : Word32) : Bool := ((expMask <<< 1) - 1).ule ((ix <<< 1) - 1)

/-- check-integer (40_classifier.md R103). -/
def checkInteger (iy : Word32) : Integrality :=
  let e := expField32 iy
  if e < 0x7F then .notInteger
  else if e > 0x7F + 23 then .evenInteger
  else
    let s := 0x7F + 23 - e
    if iy &&& ((1#32 <<< s) - 1) ≠ 0 then .notInteger
    else if iy &&& (1#32 <<< s) ≠ 0 then .oddInteger
    else .evenInteger

/-- The input classification, on the magnitude bits (40_classifier.md R105). -/
def classify (ix : Word32) : FpClass :=
  if mag32 ix = 0 then .zero
  else if mag32 ix = 0x7F800000#32 then .infinite
  else if (0x7F800000#32).ult (mag32 ix) then .nan
  else .finiteNonzero

/-- ZINFNAN (40_classifier.md R101): no operand is out of contract. -/
def execZinfnan (ix : Word32) (s : State) : Result := complete (okResponse (predicateCode (zeroInfNan ix)) 0 0) s

/-- CHKINT (40_classifier.md R103): no operand is out of contract. -/
def execChkint (iy : Word32) (s : State) : Result := complete (okResponse (integralityCode (checkInteger iy)) 0 0) s

/-- FCLASS (40_classifier.md R105): no operand is out of contract. -/
def execFclass (ix : Word32) (s : State) : Result := complete (okResponse (classCode (classify ix)) 0 0) s

end Sys2Proof.Machine
end

