-- ==== Sys2Proof/Machine/Operands.lean ====
section
/-! DEFINITION. The contracts of the operands (60_exceptions.md R212): which operands draw `OOC`. How operands are
assembled from a request is in Decode.lean (30_encoding.md R61, R68). -/

namespace Sys2Proof.Machine

/-- `InContractLog(ix)`: positive, finite, normal (41_log2.md R133). -/
def inContractLog (ix : Word32) : Bool := (0x00800000#32).ule ix && ix.ule 0x7F7FFFFF#32

/-- The contract of EXPCON: `-1021 * NE <= k <= 1023 * NE` (42_exp2.md R154). -/
def inContractExpcon (cfg : Config) (k : Int) : Bool :=
  decide (-1021 * (cfg.ne : Int) ≤ k) && decide (k ≤ 1023 * (cfg.ne : Int))

/-- `InContractExp(xd)` on patterns: `-1021.0 <= xd <= 1023.0`, no NaN (42_exp2.md R161). -/
def inContractExp (xd : Word64) : Bool :=
  if xd.msb then (mag64 xd).ule 0x408FE80000000000#64 else (mag64 xd).ule 0x408FF80000000000#64

end Sys2Proof.Machine
end

