-- ==== Sys2Proof/Machine/ExpField.lean ====
section
/-! DEFINITION. The `exponent_field_constructor` unit (42_exp2.md R150, R154): EXPCON. -/

namespace Sys2Proof.Machine

/-- `t = e + (q << 52) + (sb << 63)` modulo `2^64` (42_exp2.md R154). -/
def scaleFactor (e : Word64) (q : Int) (sb : Bool) : Word64 := e + (BitVec.ofInt 64 q <<< 52) + signBias sb

/-- The scale factor of `k`: floor quotient and remainder by `NE`, one table read (42_exp2.md R154). -/
def expconValue (cfg : Config) (k : Int) (sb : Bool) : Option Word64 :=
  (memReadE2T cfg (k % (cfg.ne : Int)).toNat).map (fun e => scaleFactor e (k / (cfg.ne : Int)) sb)

/-- EXPCON (42_exp2.md R154). -/
def execExpcon (k : Int) (sb : Bool) (s : State) : Result :=
  if inContractExpcon s.cfg k then completeRead (expconValue s.cfg k sb) s else raiseFault .ooc s

end Sys2Proof.Machine
end

