-- ==== Sys2Proof/Machine/Exp2.lean ====
section
/-! DEFINITION. The `fp_exp2_poly_eval` unit (42_exp2.md R155 to R161): split, polynomial, last multiply, EXP2. -/

namespace Sys2Proof.Machine

/-- The integer nearest to `val * 2^be`, ties to even (42_exp2.md R155). -/
def nearestScaled (be : Nat) (u : Unpacked) : Int :=
  let n := scaledRne u.sig (u.exp + be) 0
  if u.neg then -(n : Int) else n

/-- What the split gives (42_exp2.md R155). -/
structure Split where
  k : Int
  kd : Word64
  r : Word64
deriving DecidableEq, Repr

/-- The split `xd = k / NE + r` (42_exp2.md R155). -/
def split (cfg : Config) (xd : Word64) : Split :=
  let k := nearestScaled cfg.be (unpack64 xd)
  let kd := scaledIntToF64 k (-(cfg.be : Int))
  { k := k, kd := kd, r := fsub xd kd }

/-- The degree-3 polynomial `yb`, in exactly this order of rounded operations (42_exp2.md R156). -/
def polyExp2 (cfg : Config) (r : Word64) : Word64 :=
  let z := fadd (fmul (memReadC cfg 0) r) (memReadC cfg 1)
  let r2 := fmul r r
  let ya := fadd (fmul (memReadC cfg 2) r) one64
  fadd (fmul z r2) ya

/-- The value EXP2 answers with, for an operand in contract (42_exp2.md R156, R158). -/
def exp2Value (cfg : Config) (xd : Word64) (sb : Bool) : Option Word64 :=
  (expconValue cfg (split cfg xd).k sb).map (fun t => fmul (polyExp2 cfg (split cfg xd).r) t)

/-- EXP2 (42_exp2.md R156). -/
def execExp2 (xd : Word64) (sb : Bool) (s : State) : Result :=
  if inContractExp xd then completeRead (exp2Value s.cfg xd sb) s else raiseFault .ooc s

end Sys2Proof.Machine
end

