-- ==== Sys2Proof/Machine/Lookup.lean ====
section
/-! DEFINITION. The `mantissa_reciprocal_lookup` unit (41_log2.md R124 to R126): the decomposition and RCPLK. -/

namespace Sys2Proof.Machine

/-- What the decomposition gives: the exponent `k`, the pattern `iz` of `z`, the table index `i` (41_log2.md R124). -/
structure Decomp where
  k : Int
  iz : Word32
  i : Nat
deriving DecidableEq, Repr

/-- `top`, the sign and exponent part of `tmp = ix - OFF` (41_log2.md R125). -/
def decompTop (cfg : Config) (ix : Word32) : Word32 := (ix - cfg.off) &&& 0xFF800000#32

/-- The decomposition on bit patterns (41_log2.md R125); `/` on integers with a positive divisor is floor division. -/
def decompose (cfg : Config) (ix : Word32) : Decomp where
  k := (decompTop cfg ix).toInt / 2 ^ 23
  iz := ix - decompTop cfg ix
  i := ((ix - cfg.off) >>> (23 - cfg.bl)).toNat % cfg.nl

/-- `{zext_16(i), k[15:0], iz}` (41_log2.md R126, 30_encoding.md R63). -/
def packLookup (d : Decomp) : Word64 := BitVec.ofNat 16 d.i ++ (BitVec.ofInt 16 d.k ++ d.iz)

/-- RCPLK (41_log2.md R126). -/
def execRcplk (ix : Word32) (s : State) : Result :=
  if inContractLog ix then
    match memReadL2T s.cfg (decompose s.cfg ix).i with
    | none => .refused .illFormedConfig
    | some entry => complete (okResponse entry.invc entry.logc (packLookup (decompose s.cfg ix))) s
  else raiseFault .ooc s

end Sys2Proof.Machine
end

