-- ==== Sys2Proof/Machine/Log2.lean ====
section
/-! DEFINITION. The `fp_log2_poly_eval` unit (41_log2.md R127 to R130): residual, polynomial, LOG2. -/

namespace Sys2Proof.Machine

/-- The residual `r = z * invc - 1`, two rounded operations (41_log2.md R127). -/
def residual (iz : Word32) (invc : Word64) : Word64 := fsub (fmul (f32ToF64 iz) invc) one64

/-- The degree-5 polynomial, in exactly this order of rounded operations (41_log2.md R128); `n` is `k + eofs`. -/
def polyLog2 (cfg : Config) (r logc : Word64) (n : Int) : Word64 :=
  let y0 := fadd logc (intToF64 n)
  let r2 := fmul r r
  let ya := fadd (fmul (memReadA cfg 0) r) (memReadA cfg 1)
  let p := fadd (fmul (memReadA cfg 2) r) (memReadA cfg 3)
  let r4 := fmul r2 r2
  let qa := fadd (fmul (memReadA cfg 4) r) y0
  let qb := fadd (fmul p r2) qa
  fadd (fmul ya r4) qb

/-- The logarithm of `2^eofs * val32(ix)` from a decomposition and its table entry (41_log2.md R129). -/
def log2OfEntry (cfg : Config) (d : Decomp) (eofs : Int) (entry : Log2Entry) : Word64 :=
  polyLog2 cfg (residual d.iz entry.invc) entry.logc (d.k + eofs)

/-- The value LOG2 answers with, for an operand in contract (41_log2.md R129). -/
def log2Value (cfg : Config) (ix : Word32) (eofs : Int) : Option Word64 :=
  (memReadL2T cfg (decompose cfg ix).i).map (log2OfEntry cfg (decompose cfg ix) eofs)

/-- LOG2 (41_log2.md R129). -/
def execLog2 (ix : Word32) (eofs : Int) (s : State) : Result :=
  if inContractLog ix then completeRead (log2Value s.cfg ix eofs) s else raiseFault .ooc s

end Sys2Proof.Machine
end

