-- ==== Sys2Proof/Machine/Dispatch.lean ====
section
/-! DEFINITION. One arm per instruction: which meaning runs (30_encoding.md R64). -/

namespace Sys2Proof.Machine

def exec (i : Instr) (s : State) : Host.Outcome State Fault Refusal :=
  match i with
  | .zinfnan ix => Sys2Proof.Machine.execZinfnan ix s
  | .chkint iy => Sys2Proof.Machine.execChkint iy s
  | .fclass ix => Sys2Proof.Machine.execFclass ix s
  | .rcplk ix => Sys2Proof.Machine.execRcplk ix s
  | .log2 ix eofs => Sys2Proof.Machine.execLog2 ix eofs s
  | .expcon k sb => Sys2Proof.Machine.execExpcon k sb s
  | .exp2 xd sb => Sys2Proof.Machine.execExp2 xd sb s

end Sys2Proof.Machine
end

