-- ==== Sys2Proof/Machine/Perform.lean ====
section
/-! DEFINITION. Performing one request (30_encoding.md R65): what a step does with the request in front. -/

namespace Sys2Proof.Machine

/-- Performs one request: decode, then `ILLEGAL` or the instruction's meaning (30_encoding.md R65). -/
def perform (req : Req) (s : State) : Host.Outcome State Fault Refusal :=
  match decode req with
  | .error _ => raiseFault .illegal s
  | .ok i => exec i s

end Sys2Proof.Machine
end

