-- ==== Sys2Proof/Machine/Step.lean ====
section
/-! DEFINITION. One step of the block: one transaction, whole (00_scope.md R17, 30_encoding.md R65). -/

namespace Sys2Proof.Machine

/-- One step. An ill-formed configuration is refused (00_scope.md R8, log 3); a pending reset is taken first
(70_reset_and_hazards.md R240, log 6); with no request in flight the block waits (log 7); otherwise the request in
front is performed. -/
def step (s : State) : Host.Outcome State Fault Refusal :=
  if s.cfg.wf then
    if s.resetPending then .next (takeReset s)
    else
      match fetch s with
      | .idle => .next s
      | .badPort => .fault .noSuchPort
      | .request req => perform req s
  else .refused .illFormedConfig

/-- `s` with the table word's request in front of its requests, on port 0, and no reset pending, so that the very next
step performs exactly it (log 9). -/
def State.withFetchWord (s : State) (nbits w : Nat) : State :=
  { s with requests := ⟨0, tableRequest nbits w⟩ :: s.requests, resetPending := false }

end Sys2Proof.Machine
end

