-- ==== Sys2Proof/Machine/PowHost.lean ====
section
/-! DEFINITION. The HOST: D0's Dispatcher (45_host_dispatcher.md R180 to R198), which is software around the block and
no part of it (00_scope.md R5 (a); log 12). It is a function that puts requests to the block through `step` and does
its own arithmetic between them, so that what D0 says of `power` can be stated of the model. It adds nothing to State. -/

namespace Sys2Proof.Machine

/-- The block with one request in flight, on port 0, and nothing answered yet. -/
def State.lone (cfg : Config) (req : Req) : State := ⟨cfg, [⟨0, req⟩], [], false⟩

/-- The response of the block to one request alone: the function `cfg -> REQ -> RSP` of 70_reset_and_hazards.md R250,
read off `step`. -/
def blockAnswer (cfg : Config) (req : Req) : Option Response :=
  match step (State.lone cfg req) with
  | .next t => (t.responses.head?).map (·.rsp)
  | .fault _ => none
  | .refused _ => none

/-- The host asks the block for an instruction and takes `r0`; none where the status is not `OK`, which a correct host
never sees (45_host_dispatcher.md R195, R197). -/
def askBlock (cfg : Config) (i : Instr) : Option Word64 :=
  match blockAnswer cfg (encode i) with
  | none => none
  | some rsp => if rsp.status = .ok then some rsp.r0 else none

/-- The error conditions of the host (45_host_dispatcher.md R191, R195). -/
inductive Condition where
  | invalidDomain
  | pole
  | overflow
  | underflow
  | mayUnderflow
deriving DecidableEq, Repr

/-- The host's parameters (92_eei_decisions.md, OPEN parameters). -/
structure HostParams where
  upper : Word64
  bandTop : Word64
  wantErrno : Bool
  wantErrnoUflow : Bool
deriving DecidableEq, Repr

/-- What one evaluation of `power` gives: the binary32 pattern, and the condition met. -/
structure HostResult where
  bits : Word32
  condition : Option Condition
deriving DecidableEq, Repr

/-- The repository's values of `UPPER` and `BAND_TOP` (45_host_dispatcher.md R191), signals disabled (R196). -/
def repositoryHost : HostParams := ⟨0x405FFFFFFFD1D571#64, 0xC062A00000000000#64, false, false⟩

/-- Which conditions raise the sticky signal (45_host_dispatcher.md R196): the pole with `WANT_ERRNO`, the
may-underflow band with `WANT_ERRNO_UFLOW`. That `WANT_ERRNO` gates the other three is a DESIGN CHOICE (log 12). -/
def HostParams.raises (h : HostParams) : Condition → Bool
  | .invalidDomain => h.wantErrno
  | .pole => h.wantErrno
  | .overflow => h.wantErrno
  | .underflow => h.wantErrno
  | .mayUnderflow => h.wantErrnoUflow

/-- The signal an evaluation raises on the host's sticky channel, if any (45_host_dispatcher.md R195, R196). -/
def HostParams.signal (h : HostParams) (r : HostResult) : Option Condition := r.condition.filter h.raises

/-- The binary32 pattern of 1. -/
def one32 : Word32 := 0x3F800000#32

/-- A quiet binary32 NaN with free sign and payload (93_implementation_defined.md U11, log 8). -/
def quietNaN32 (a b : Word32) : Word32 :=
  BitVec.ofBool (Config.nan32 a b).1 ++ (0xFF#8 ++ (1#1 ++ (Config.nan32 a b).2))

/-- A signalling NaN: mantissa bit 22 is 0 (45_host_dispatcher.md R184). -/
def isSignalling32 (b : Word32) : Bool := isNaN32 b && !b.getLsbD 22

/-- The infinity with the given sign. -/
def inf32 (neg : Bool) : Word32 := BitVec.ofBool neg ++ 0x7F800000#31

/-- The zero with the given sign. -/
def zero32 (neg : Bool) : Word32 := BitVec.ofBool neg ++ 0#31

/-- The host's `v * v` for a `v` that is zero, infinite or NaN (45_host_dispatcher.md R186). -/
def squareSpecial (v : Word32) : Word32 :=
  if isNaN32 v then quietNaN32 v v else if mag32 v = 0 then zero32 false else inf32 false

/-- The host's `1 / v` for a `v` that is zero, infinite or NaN (45_host_dispatcher.md R186). -/
def reciprocalSpecial (v : Word32) : Word32 :=
  if isNaN32 v then quietNaN32 one32 v else if mag32 v = 0 then inf32 v.msb else zero32 v.msb

/-- Step 1, for a `y` that is zero, infinite or NaN (45_host_dispatcher.md R183, R185). -/
def hostStep1 (ix iy : Word32) : Word32 :=
  if mag32 iy = 0 then (if isSignalling32 ix then quietNaN32 ix iy else one32)
  else if ix = one32 then (if isSignalling32 iy then quietNaN32 ix iy else one32)
  else if (0x7F800000#32).ult (mag32 ix) || (0x7F800000#32).ult (mag32 iy) then quietNaN32 ix iy
  else if mag32 ix = one32 then one32
  else if (mag32 ix).ult one32 = !iy.msb then zero32 false
  else inf32 false

/-- Step 2, for an `x` that is zero, infinite or NaN; `odd` says that `x` is negative and `CHKINT iy` answered
odd-integer (45_host_dispatcher.md R186, 90_conflicts.md C4). -/
def hostStep2 (ix iy : Word32) (odd : Bool) : HostResult :=
  let x2 := if odd then squareSpecial ix ^^^ 0x80000000#32 else squareSpecial ix
  let pole := decide (mag32 ix = 0) && iy.msb
  ⟨if iy.msb then reciprocalSpecial x2 else x2, if pole then some .pole else none⟩

/-- Step 4: a subnormal is multiplied by `2^23`, with the offset -23 (45_host_dispatcher.md R188). -/
def hostNormalise (m : Word32) : Word32 × Int :=
  if m.ult 0x00800000#32 then (round32 false m.toNat (-149 + 23), -23) else (m, 0)

/-- The order of finite binary64 patterns by value, as integers. -/
def key64 (b : Word64) : Int := if b.msb then -((mag64 b).toNat : Int) else ((mag64 b).toNat : Int)

/-- The binary64 pattern of -150. -/
def minus150 : Word64 := 0xC062C00000000000#64

/-- The host's `ylogx = y * logx` (45_host_dispatcher.md R189). -/
def hostYlogx (iy : Word32) (logx : Word64) : Word64 := fmul (f32ToF64 iy) logx

/-- The fast test `abs(ylogx) >= 126` on bits 62:47 (45_host_dispatcher.md R190). -/
def hostFarFromZero (ylogx : Word64) : Bool := (0x80BF#16).ule (ylogx.extractLsb' 47 16)

/-- The host's narrowing to binary32, round to nearest, ties to even (45_host_dispatcher.md R194). -/
def narrow (y : Word64) : Word32 :=
  if isNaN64 y then quietNaN32 0 0
  else if isInf64 y then inf32 y.msb
  else round32 (unpack64 y).neg (unpack64 y).sig (unpack64 y).exp

/-- Step 5 from `ylogx` on (45_host_dispatcher.md R190 to R192, 90_conflicts.md C5). -/
def hostFinish (cfg : Config) (h : HostParams) (ylogx : Word64) (sb : Bool) : Option HostResult :=
  if hostFarFromZero ylogx && decide (key64 h.upper < key64 ylogx) then some ⟨inf32 sb, some .overflow⟩
  else if hostFarFromZero ylogx && decide (key64 ylogx ≤ key64 minus150) then some ⟨zero32 sb, some .underflow⟩
  else
    let band := hostFarFromZero ylogx && decide (key64 ylogx < key64 h.bandTop)
    (askBlock cfg (.exp2 ylogx sb)).map (fun y => ⟨narrow y, if band then some .mayUnderflow else none⟩)

/-- Steps 4 and 5, from the magnitude of a finite nonzero `x` and the SignBias (45_host_dispatcher.md R188 to R192). -/
def hostCommon (cfg : Config) (h : HostParams) (m iy : Word32) (sb : Bool) : Option HostResult :=
  (askBlock cfg (.log2 (hostNormalise m).1 (hostNormalise m).2)).bind
    (fun logx => hostFinish cfg h (hostYlogx iy logx) sb)

/-- Step 3, for a finite nonzero `x`, then the common path; `parity` is the answer of `CHKINT iy`, asked for a negative
`x` only (45_host_dispatcher.md R187). -/
def hostStep3 (cfg : Config) (h : HostParams) (ix iy : Word32) : Option HostResult :=
  if ix.msb then
    (askBlock cfg (.chkint iy)).bind (fun parity =>
      if parity = 0 then some ⟨quietNaN32 ix iy, some .invalidDomain⟩
      else hostCommon cfg h (mag32 ix) iy (parity == 1))
  else hostCommon cfg h (mag32 ix) iy false

/-- Step 2 with its request: `CHKINT iy` is asked for a negative `x` (45_host_dispatcher.md R186, R198). -/
def hostSpecialX (cfg : Config) (ix iy : Word32) : Option HostResult :=
  if ix.msb then (askBlock cfg (.chkint iy)).map (fun parity => hostStep2 ix iy (parity == 1))
  else some (hostStep2 ix iy false)

/-- `power_f32(x, y)`: the fixed decision order of the dispatcher (45_host_dispatcher.md R180, R181, R198). None where
the block does not answer `OK`. -/
def powHost (cfg : Config) (h : HostParams) (ix iy : Word32) : Option HostResult :=
  (askBlock cfg (.zinfnan iy)).bind (fun ySpecial =>
    if ySpecial = 1 then some ⟨hostStep1 ix iy, none⟩
    else (askBlock cfg (.zinfnan ix)).bind (fun xSpecial =>
      if xSpecial = 1 then hostSpecialX cfg ix iy else hostStep3 cfg h ix iy))

end Sys2Proof.Machine
end

