-- ==== Sys2Proof/Machine/Value.lean ====
section
/-! DEFINITION. The real values of patterns (`val32`, `val64`, 00_scope.md R13) as rationals, and what rounding to
nearest means of them (41_log2.md R120 (a)): the vocabulary in which the statements speak of values. No meaning uses it. -/

namespace Sys2Proof.Machine

/-- The value `(-1)^neg * sig * 2^exp`. -/
def Unpacked.val (u : Unpacked) : ℚ := (if u.neg then -1 else 1) * (u.sig : ℚ) * (2 : ℚ) ^ u.exp

/-- `val64(b)` of a finite pattern (00_scope.md R13). -/
def val64 (b : Word64) : ℚ := Unpacked.val (unpack64 b)

/-- `val32(b)` of a finite pattern (00_scope.md R13). -/
def val32 (b : Word32) : ℚ := Unpacked.val (unpack32 b)

/-- `r` is `v` rounded to nearest, ties to even (41_log2.md R120 (a)), for `v` not zero: finite and nearest among the
finite patterns, with an even mantissa field where another finite pattern is equally near; or the infinity, exactly
where the nearest number with unbounded exponent would have magnitude `2^1024` or more, that is from halfway between
the largest finite number and `2^1024` up. The sign is that of `v`. -/
structure IsRne (v : ℚ) (r : Word64) : Prop where
  sign : r.msb = decide (v < 0)
  notNaN : isNaN64 r = false
  overflow : isInf64 r = true ↔ (2 : ℚ) ^ (1024 : ℤ) - 2 ^ (970 : ℤ) ≤ |v|
  nearest : isFinite64 r = true → ∀ c : Word64, isFinite64 c = true → |val64 r - v| ≤ |val64 c - v|
  even : isFinite64 r = true → ∀ c : Word64, isFinite64 c = true → |val64 c - v| = |val64 r - v| →
    val64 c ≠ val64 r → r.getLsbD 0 = false

/-- The exponent `k` of the decomposition as an integer quotient: `floor((ix - OFF) / 2^23)` (41_log2.md R125). -/
def logK (cfg : Config) (ix : Word32) : Int := ((ix.toNat : Int) - (cfg.off.toNat : Int)) / 2 ^ 23

/-- The pattern of `z` as an integer: `uint(ix) - k * 2^23` (41_log2.md R125). -/
def logIz (cfg : Config) (ix : Word32) : Int := (ix.toNat : Int) - logK cfg ix * 2 ^ 23

/-- The table index as an integer quotient: `floor((uint(iz) - uint(OFF)) / 2^(23 - BL))` (41_log2.md R125). -/
def logIndex (cfg : Config) (ix : Word32) : Int := (logIz cfg ix - (cfg.off.toNat : Int)) / 2 ^ (23 - cfg.bl)

/-- `k` is the integer nearest to `v`, the even one if `v` is halfway between two (42_exp2.md R155). -/
structure IsNearestEven (v : ℚ) (k : Int) : Prop where
  near : |v - k| ≤ 1 / 2
  tie : |v - k| = 1 / 2 → k % 2 = 0

end Sys2Proof.Machine
end

