-- ==== Sys2Proof/Safety.lean ====
section
/-! DEFINITION. What a safe run is: the states the block can be in, and runs of the machine. -/

namespace Sys2Proof.Machine

/-- A response as the block may give it: lanes hold a result only with status `OK` (30_encoding.md R63,
60_exceptions.md R210). -/
def Response.wf (r : Response) : Bool := r.status == .ok || (r.r0 == 0 && r.r1 == 0 && r.r2 == 0)

/-- Every request in flight came on a port that exists (60_exceptions.md R222). -/
def State.requestsOk (s : State) : Bool := s.requests.all (fun p => decide (p.port < s.cfg.nports))

/-- Every response went to a port that exists, with zero lanes unless its status is `OK`. -/
def State.responsesOk (s : State) : Bool :=
  s.responses.all (fun d => decide (d.port < s.cfg.nports) && d.rsp.wf)

/-- THE INVARIANT of the block: a well-formed configuration (00_scope.md R8), and transactions as above. -/
def State.inv (s : State) : Bool := s.cfg.wf && s.requestsOk && s.responsesOk

/-- `k` steps from `s`, stopping at the first fault or refusal. -/
def runSteps : Nat → State → Result
  | 0, s => .next s
  | k + 1, s =>
    match step s with
    | .next t => runSteps k t
    | .fault r => .fault r
    | .refused r => .refused r

/-- A state from which no number of steps stops in a fault or a refusal. -/
def State.Safe (s : State) : Prop := ∀ k, ∃ t, runSteps k s = .next t

end Sys2Proof.Machine
end

