-- ==== Sys2Proof/Certificates/Slice0/Obligations.lean ====
section
/-! DEFINITION. The statements for the provers, from the numbered rules of spec/. -/

open Sys2Proof Sys2Proof.Machine

/-! ## Requests and responses (30_encoding.md) -/

/-- 30_encoding.md R60: a request is the 104-bit vector whose bits 103:96 are `op`, 95:64 are `b` and 63:0 are `a`,
and nothing else. -/
def Obligations.RequestLayout : Prop :=
  (∀ (op : BitVec 8) (b : Word32) (a : Word64),
    (Req.pack op b a).extractLsb' 96 8 = op ∧ (Req.pack op b a).extractLsb' 64 32 = b ∧
      (Req.pack op b a).extractLsb' 0 64 = a) ∧
  ∀ r : Req, r = Req.pack (r.extractLsb' 96 8) (r.extractLsb' 64 32) (r.extractLsb' 0 64)

/-- 30_encoding.md R62: the response vector is `status` in bits 193:192 (0 `OK`, 1 `ILLEGAL`, 2 `OOC`, 3 never), then
`r2`, `r1`, `r0`. -/
def Obligations.ResponseLayout : Prop :=
  ∀ r : Response,
    r.toBits.extractLsb' 0 64 = r.r0 ∧ r.toBits.extractLsb' 64 64 = r.r1 ∧ r.toBits.extractLsb' 128 64 = r.r2 ∧
      (r.status = .ok → r.toBits.extractLsb' 192 2 = 0#2) ∧ (r.status = .illegal → r.toBits.extractLsb' 192 2 = 1#2) ∧
      (r.status = .ooc → r.toBits.extractLsb' 192 2 = 2#2) ∧ r.toBits.extractLsb' 192 2 ≠ 3#2

/-- Encoding loses nothing: the decoder gives back every instruction whose operands fit its encoding
(30_encoding.md, sections 1 to 3). -/
def Obligations.DecodeOfEncodeIsTheInstruction : Prop :=
  ∀ i : Instr, i.wf = true → decode (encode i) = .ok i

/-- No two requests mean one instruction: a request that decodes is the encoding of what it decodes to, and its
operands fit (30_encoding.md, sections 1 to 3; decision D4). -/
def Obligations.EncodeOfDecodeIsTheRequest : Prop :=
  ∀ (r : Req) (i : Instr), decode r = .ok i → encode i = r ∧ i.wf = true

/-- 30_encoding.md section 2: a request that decodes selects the row of its own mnemonic, and a request that selects a
row of the opcode table (`REQ & mask = match`) decodes. -/
def Obligations.DecodeFollowsTheOpcodeTable : Prop :=
  (∀ (r : Req) (i : Instr), decode r = .ok i →
    ∃ row ∈ opcodeTable, row.mnemonic = i.mnemonic ∧ r &&& row.mask = row.matchBits) ∧
  ∀ (r : Req) (row : OpcodeRow), row ∈ opcodeTable → r &&& row.mask = row.matchBits →
    ∃ i, decode r = .ok i ∧ i.mnemonic = row.mnemonic

/-- Words of 95_test_vectors.md decode to the instructions they are written for. -/
def Obligations.SpecWordsDecode : Prop :=
  decode 0x010000000000000000FF800000#104 = .ok (.zinfnan 0xFF800000#32) ∧
  decode 0x02000000000000000040400000#104 = .ok (.chkint 0x40400000#32) ∧
  decode 0x0300000000000000007F800001#104 = .ok (.fclass 0x7F800001#32) ∧
  decode 0x04000000000000000041200000#104 = .ok (.rcplk 0x41200000#32) ∧
  decode 0x05FFFFFFE90000000000800000#104 = .ok (.log2 0x00800000#32 (-23)) ∧
  decode 0x060000000000000000FFFFED60#104 = .ok (.expcon (-4768) false) ∧
  decode 0x07000000014022000000000000#104 = .ok (.exp2 0x4022000000000000#64 true)

/-! ## Steps, faults, reset, invariants -/

/-- When the request in front decodes to `i`, a step is `exec i`, with nothing added around it (00_scope.md section 6,
30_encoding.md section 2). -/
def Obligations.StepRunsTheDecodedInstruction : Prop :=
  ∀ (s : State) (p : Pending) (rest : List Pending) (i : Instr),
    s.cfg.wf = true → s.resetPending = false → s.requests = p :: rest → p.port < s.cfg.nports →
    decode p.req = .ok i → step s = exec i s

/-- 30_encoding.md R67: a reserved operation code draws `ILLEGAL` whatever `a` and `b` hold, and every request either
decodes to an instruction with legal fields or draws `ILLEGAL`: there is no hint, no custom space, no undefined
encoding. -/
def Obligations.ReservedOpcodeDrawsIllegal : Prop :=
  ∀ (s : State) (p : Pending) (rest : List Pending),
    s.cfg.wf = true → s.resetPending = false → s.requests = p :: rest → p.port < s.cfg.nports →
    ((p.req.extractLsb' 96 8 = 0#8 ∨ 8 ≤ (p.req.extractLsb' 96 8).toNat) →
      step s = .next (s.answered p rest ⟨.illegal, 0, 0, 0⟩)) ∧
    (step s = .next (s.answered p rest ⟨.illegal, 0, 0, 0⟩) ∨
      ∃ i : Instr, i.wf = true ∧ p.req = encode i ∧ step s = exec i s)

/-- 30_encoding.md R66: for the formats F32, F32E and K32S (op 1 to 6) `a[63:32]` must be zero, for F32, K32S and F64S
(op 1 to 4, 6, 7) `b[31:1]`, for F32 (op 1 to 4) also `b[0]`; a request that breaks this draws `ILLEGAL` and no
result. -/
def Obligations.ReservedBitsDrawIllegal : Prop :=
  ∀ (s : State) (p : Pending) (rest : List Pending),
    s.cfg.wf = true → s.resetPending = false → s.requests = p :: rest → p.port < s.cfg.nports →
    let op := (p.req.extractLsb' 96 8).toNat
    ((1 ≤ op ∧ op ≤ 6 ∧ p.req.extractLsb' 32 32 ≠ 0) ∨
      (1 ≤ op ∧ op ≤ 7 ∧ op ≠ 5 ∧ p.req.extractLsb' 65 31 ≠ 0) ∨
      (1 ≤ op ∧ op ≤ 4 ∧ p.req.extractLsb' 64 1 ≠ 0)) →
    step s = .next (s.answered p rest ⟨.illegal, 0, 0, 0⟩)

/-- 30_encoding.md R65: decoding is total and in this order: a reserved code draws `ILLEGAL`; then a reserved bit that is
not zero draws `ILLEGAL`; then an operand out of contract draws `OOC`; otherwise the operation is performed and answers
`OK`. -/
def Obligations.RequestIsHandledInOrder : Prop :=
  ∀ (s : State) (p : Pending) (rest : List Pending),
    s.cfg.wf = true → s.resetPending = false → s.requests = p :: rest → p.port < s.cfg.nports →
    let op := (p.req.extractLsb' 96 8).toNat
    let reservedBit := (op ≤ 6 ∧ p.req.extractLsb' 32 32 ≠ 0) ∨ (op ≠ 5 ∧ p.req.extractLsb' 65 31 ≠ 0) ∨
      (op ≤ 4 ∧ p.req.extractLsb' 64 1 ≠ 0)
    let outOfContract := ((op = 4 ∨ op = 5) ∧ inContractLog (p.req.extractLsb' 0 32) = false) ∨
      (op = 6 ∧ inContractExpcon s.cfg (p.req.extractLsb' 0 32).toInt = false) ∨
      (op = 7 ∧ inContractExp (p.req.extractLsb' 0 64) = false)
    ((op = 0 ∨ 8 ≤ op) → step s = .next (s.answered p rest ⟨.illegal, 0, 0, 0⟩)) ∧
    (1 ≤ op → op ≤ 7 → reservedBit → step s = .next (s.answered p rest ⟨.illegal, 0, 0, 0⟩)) ∧
    (1 ≤ op → op ≤ 7 → ¬ reservedBit → outOfContract → step s = .next (s.answered p rest ⟨.ooc, 0, 0, 0⟩)) ∧
    (1 ≤ op → op ≤ 7 → ¬ reservedBit → ¬ outOfContract →
      ∃ i rsp, decode p.req = .ok i ∧ step s = exec i s ∧ step s = .next (s.answered p rest rsp) ∧ rsp.status = .ok)

/-- 60_exceptions.md R210: raising a fault answers the request in front with the code and zero lanes; nothing else
happens, on this port or another, and later requests are handled as if the fault had not happened: the state is the
one without that request but for the response. -/
def Obligations.FaultIsOnlyAResponse : Prop :=
  ∀ (s : State) (p : Pending) (rest : List Pending) (code : FaultCode), s.requests = p :: rest →
    ∃ t, raiseFault code s = .next t ∧ t.cfg = s.cfg ∧ t.resetPending = s.resetPending ∧ t.requests = rest ∧
      t.responses = s.responses ++ [⟨p.port, ⟨faultStatus code, 0, 0, 0⟩⟩] ∧
      t.responsesOn p.port = s.responsesOn p.port ++ [⟨faultStatus code, 0, 0, 0⟩] ∧
      ∀ port, port ≠ p.port → t.responsesOn port = s.responsesOn port ∧ t.requestsOn port = s.requestsOn port

/-- A step with a request in front answers that request, once, and changes nothing else: the frame of a step
(00_scope.md section 6, 70_reset_and_hazards.md section 4). -/
def Obligations.StepAnswersTheRequestInFront : Prop :=
  ∀ (s : State) (p : Pending) (rest : List Pending),
    s.inv = true → s.resetPending = false → s.requests = p :: rest →
    ∃ rsp, step s = .next (s.answered p rest rsp) ∧ rsp.wf = true

/-- THE FRAME of all seven instructions: when `exec` answers a next state, the constant stores and the rest of the
configuration, the reset input, the other requests and every earlier response are unchanged, and exactly one response
went to the port of the request in front. -/
def Obligations.EveryInstructionFrame : Prop :=
  ∀ (i : Instr) (s t : State), exec i s = .next t →
    ∃ p rest rsp, s.requests = p :: rest ∧ t.cfg = s.cfg ∧ t.resetPending = s.resetPending ∧ t.requests = rest ∧
      t.responses = s.responses ++ [⟨p.port, rsp⟩] ∧ rsp.wf = true ∧
      ∀ port, port ≠ p.port → t.responsesOn port = s.responsesOn port ∧ t.requestsOn port = s.requestsOn port

/-- 20_memory.md R42: no operation writes any store, in any number of steps, and nothing the outside can do writes one
either. -/
def Obligations.NoStepWritesAConstantStore : Prop :=
  (∀ (s t : State) (k : Nat), runSteps k s = .next t →
    t.cfg = s.cfg ∧ (∀ i, memReadL2T t.cfg i = memReadL2T s.cfg i) ∧ (∀ i, memReadE2T t.cfg i = memReadE2T s.cfg i) ∧
      (∀ j, memReadA t.cfg j = memReadA s.cfg j) ∧ ∀ j, memReadC t.cfg j = memReadC s.cfg j) ∧
  ∀ (s : State) (port : Nat) (req : Req), (s.submit port req).cfg = s.cfg ∧ s.assertReset.cfg = s.cfg

/-- Every step keeps the invariant of the block: a well-formed configuration, ports that exist, zero lanes in every
response that is not `OK`. -/
def Obligations.StepKeepsTheInvariant : Prop :=
  ∀ s t : State, s.inv = true → step s = .next t → t.inv = true

/-- The reset state meets the invariant, with no request in flight (10_state.md section 3). That its configuration is
RC0 is the model's choice (log 1). -/
def Obligations.ResetMeetsTheInvariant : Prop :=
  State.reset.inv = true ∧ State.reset.requests = []

/-- A state that meets the invariant is safe: no number of steps ends in a fault or a refusal (70_reset_and_hazards.md
section 4: every accepted request gets its response; the waiting step is the model's choice, log 7). -/
def Obligations.InvariantStatesAreSafe : Prop :=
  ∀ s : State, s.inv = true → s.Safe

/-- 20_memory.md R49: with `n` requests in flight and no reset, `n` steps answer them all, each once
(70_reset_and_hazards.md R248 (a)), and on every port the responses are, in the order of that port's requests (R248 (b)),
those that the block gives for each request alone. So reordering, repeating or interleaving requests changes no
response. -/
def Obligations.EveryRequestIsAnsweredAsIfAlone : Prop :=
  ∀ s : State, s.inv = true → s.resetPending = false →
    ∃ t, runSteps s.requests.length s = .next t ∧ t.requests = [] ∧ t.cfg = s.cfg ∧
      ∀ port, (t.responsesOn port).map some =
        (s.responsesOn port).map some ++ (s.requestsOn port).map (blockAnswer s.cfg)

/-- A response depends on its own request and the configuration only: two states that agree on these give the same
response, whatever ports, other requests and earlier responses they hold (00_scope.md section 6; 60_exceptions.md
section 3, one requester learns nothing about another's operands). -/
def Obligations.ResponseDependsOnOwnRequestOnly : Prop :=
  ∀ (s s' : State) (p p' : Pending) (rest rest' : List Pending),
    s.inv = true → s'.inv = true → s.resetPending = false → s'.resetPending = false →
    s.requests = p :: rest → s'.requests = p' :: rest' → s.cfg = s'.cfg → p.req = p'.req →
    ∃ rsp, step s = .next (s.answered p rest rsp) ∧ step s' = .next (s'.answered p' rest' rsp)

/-- Reset drops every request in flight: they get no response in any number of later steps, the constant stores and
the responses already given are unchanged, and reset is over (70_reset_and_hazards.md section 1; that reset is taken by
the next step is the model's choice, log 6, and so is that a step with no request in flight changes nothing, log 7). -/
def Obligations.ResetDropsRequestsForGood : Prop :=
  ∀ s : State, s.inv = true → s.resetPending = true →
    ∃ t, step s = .next t ∧ t.requests = [] ∧ t.resetPending = false ∧ t.cfg = s.cfg ∧ t.responses = s.responses ∧
      ∀ k, runSteps k t = .next t

/-- The first request submitted after reset is answered as any other, on every port that exists
(70_reset_and_hazards.md section 1). -/
def Obligations.FirstRequestAfterResetIsAnswered : Prop :=
  ∀ (s : State) (port : Nat) (req : Req), s.inv = true → port < s.cfg.nports →
    ∃ t u rsp, step s.assertReset = .next t ∧ step (t.submit port req) = .next u ∧
      blockAnswer s.cfg req = some rsp ∧ u.responses = s.responses ++ [⟨port, rsp⟩] ∧ u.requests = []

/-- A configuration that breaks the bounds is refused, whatever is in flight (00_scope.md section 4). -/
def Obligations.IllFormedConfigIsRefused : Prop :=
  ∀ s : State, s.cfg.wf = false → step s = .refused .illFormedConfig

/-- What the lanes hold when the status is `OK`: `r1` and `r2` are zero but for RCPLK, the predicate is one bit, the
Integrality code below 3 and the Class code below 4 (30_encoding.md section 1). -/
def Obligations.UnusedLanesAreZero : Prop :=
  ∀ (i : Instr) (s : State) (p : Pending) (rest : List Pending) (rsp : Response),
    s.requests = p :: rest → exec i s = .next (s.answered p rest rsp) →
    ((∀ ix, i ≠ .rcplk ix) → rsp.r1 = 0 ∧ rsp.r2 = 0) ∧ (∀ ix, i = .zinfnan ix → rsp.r0.toNat ≤ 1) ∧
      (∀ iy, i = .chkint iy → rsp.r0.toNat ≤ 2) ∧ (∀ ix, i = .fclass ix → rsp.r0.toNat ≤ 3)

/-! ## The classifier (40_classifier.md) -/

/-- ZINFNAN answers 1 exactly when the exponent field is all ones or the value is zero, whatever the sign
(40_classifier.md, "ZINFNAN in words", which the spec derives from the comparison). -/
def Obligations.ZinfnanResult : Prop :=
  ∀ (ix : Word32) (s : State) (p : Pending) (rest : List Pending), s.requests = p :: rest →
    exec (.zinfnan ix) s = .next (s.answered p rest
      ⟨.ok, if expField32 ix = 255 ∨ (expField32 ix = 0 ∧ fracField32 ix = 0) then 1 else 0, 0, 0⟩)

/-- CHKINT answers 0, 1 or 2 as the value of a finite nonzero pattern is no integer, an odd one or an even one; zeros and
subnormals give 0, infinities and NaNs 2 (40_classifier.md, "CHKINT in words and its corner cases", which the spec
derives). -/
def Obligations.ChkintResult : Prop :=
  ∀ (iy : Word32) (s : State) (p : Pending) (rest : List Pending), s.requests = p :: rest →
    ∃ c : Word64, exec (.chkint iy) s = .next (s.answered p rest ⟨.ok, c, 0, 0⟩) ∧
      (isFinite32 iy = true → mag32 iy ≠ 0 →
        (c = 0 ∧ ∀ n : Int, val32 iy ≠ n) ∨ (c = 1 ∧ ∃ n : Int, val32 iy = n ∧ n % 2 = 1) ∨
          (c = 2 ∧ ∃ n : Int, val32 iy = n ∧ n % 2 = 0)) ∧
      (expField32 iy = 0 → c = 0) ∧ (expField32 iy = 255 → c = 2)

/-- FCLASS answers 0 for a zero, 1 for an infinity, 2 for a NaN, 3 for a finite nonzero pattern (40_classifier.md,
section FCLASS; 10_state.md section 4). -/
def Obligations.FclassResult : Prop :=
  ∀ (ix : Word32) (s : State) (p : Pending) (rest : List Pending), s.requests = p :: rest →
    exec (.fclass ix) s = .next (s.answered p rest
      ⟨.ok, if expField32 ix = 0 ∧ fracField32 ix = 0 then 0
        else if expField32 ix = 255 then (if fracField32 ix = 0 then 1 else 2) else 3, 0, 0⟩)

/-- ZINFNAN answers 1 exactly when FCLASS does not answer finite-nonzero (40_classifier.md, last rule, which the spec
derives). -/
def Obligations.ZinfnanAgreesWithFclass : Prop :=
  ∀ (ix : Word32) (s : State) (p : Pending) (rest : List Pending), s.requests = p :: rest →
    ∃ a b : Word64, exec (.zinfnan ix) s = .next (s.answered p rest ⟨.ok, a, 0, 0⟩) ∧
      exec (.fclass ix) s = .next (s.answered p rest ⟨.ok, b, 0, 0⟩) ∧ (a = 1 ↔ b ≠ 3)

/-- No classifier operation reads the sign bit (40_classifier.md). -/
def Obligations.ClassifierIgnoresTheSign : Prop :=
  ∀ (ix : Word32) (s : State),
    exec (.zinfnan (ix ^^^ 0x80000000#32)) s = exec (.zinfnan ix) s ∧
    exec (.chkint (ix ^^^ 0x80000000#32)) s = exec (.chkint ix) s ∧
    exec (.fclass (ix ^^^ 0x80000000#32)) s = exec (.fclass ix) s

/-! ## The log2 path (41_log2.md) -/

/-- 41_log2.md R133: the contract of RCPLK and LOG2 is `0x00800000 <= uint(ix) <= 0x7F7FFFFF`, that is sign bit clear and
biased exponent from 1 to 254; any other pattern draws `OOC` from both. -/
def Obligations.LogContract : Prop :=
  ∀ ix : Word32,
    (inContractLog ix = true ↔ 0x00800000 ≤ ix.toNat ∧ ix.toNat ≤ 0x7F7FFFFF) ∧
    (inContractLog ix = true ↔ ix.msb = false ∧ 1 ≤ expField32 ix ∧ expField32 ix ≤ 254) ∧
    (¬ (0x00800000 ≤ ix.toNat ∧ ix.toNat ≤ 0x7F7FFFFF) →
      ∀ (s : State) (p : Pending) (rest : List Pending) (eofs : Int), s.requests = p :: rest →
        exec (.rcplk ix) s = .next (s.answered p rest ⟨.ooc, 0, 0, 0⟩) ∧
        exec (.log2 ix eofs) s = .next (s.answered p rest ⟨.ooc, 0, 0, 0⟩))

/-- RCPLK of an operand in contract answers the table entry of its subinterval and `{i, k, iz}`, with `k`, `iz` and `i`
the integer quotients that the spec derives from the pattern operations (41_log2.md section 3). -/
def Obligations.RcplkResult : Prop :=
  ∀ (ix : Word32) (s : State) (p : Pending) (rest : List Pending),
    s.cfg.wf = true → s.requests = p :: rest → inContractLog ix = true →
    ∃ (entry : Log2Entry) (r2 : Word64), s.cfg.l2t[(logIndex s.cfg ix).toNat]? = some entry ∧
      exec (.rcplk ix) s = .next (s.answered p rest ⟨.ok, entry.invc, entry.logc, r2⟩) ∧
      ((r2.extractLsb' 48 16).toNat : Int) = logIndex s.cfg ix ∧ (r2.extractLsb' 32 16).toInt = logK s.cfg ix ∧
      ((r2.extractLsb' 0 32).toNat : Int) = logIz s.cfg ix

/-- The decomposition is exact: `x = 2^k * z` with `z` in `[c, 2c)` and the pattern of `z` finite and normal
(41_log2.md section 3). -/
def Obligations.DecompositionIsExact : Prop :=
  ∀ (cfg : Config) (ix : Word32), cfg.wf = true → inContractLog ix = true →
    let d := decompose cfg ix
    val32 ix = 2 ^ d.k * val32 d.iz ∧ val32 cfg.off ≤ val32 d.iz ∧ val32 d.iz < 2 * val32 cfg.off ∧
      inContractLog d.iz = true

/-- The ranges of the decomposition, for every well-formed configuration and, with the ends attained, for RC0
(41_log2.md, last rule, which the spec derives). -/
def Obligations.DecompositionRanges : Prop :=
  (∀ (cfg : Config) (ix : Word32), cfg.wf = true → inContractLog ix = true →
    let d := decompose cfg ix
    (-253 : Int) ≤ d.k ∧ d.k ≤ 253 ∧ d.i < cfg.nl ∧ cfg.off.toNat ≤ d.iz.toNat ∧ d.iz.toNat ≤ cfg.off.toNat + 0x7FFFFF ∧
      d.iz.toNat ≤ 0x7F7FFFFF) ∧
  (∀ ix : Word32, inContractLog ix = true → -126 ≤ (decompose rc0 ix).k ∧ (decompose rc0 ix).k ≤ 128) ∧
  (decompose rc0 0x00800000#32).k = -126 ∧ (decompose rc0 0x7F7FFFFF#32).k = 128

/-- LOG2 of an operand in contract answers the polynomial of 41_log2.md section 4, in that order of rounded operations,
on the entry, the residual and `k + eofs` of its operand. -/
def Obligations.Log2Result : Prop :=
  ∀ (ix : Word32) (eofs : Int) (s : State) (p : Pending) (rest : List Pending),
    s.cfg.wf = true → s.requests = p :: rest → inContractLog ix = true →
    ∃ (entry : Log2Entry) (iz : Word32), s.cfg.l2t[(logIndex s.cfg ix).toNat]? = some entry ∧
      (iz.toNat : Int) = logIz s.cfg ix ∧
      let r := fsub (fmul (f32ToF64 iz) entry.invc) one64
      let y0 := fadd entry.logc (intToF64 (logK s.cfg ix + eofs))
      let r2 := fmul r r
      let ya := fadd (fmul (memReadA s.cfg 0) r) (memReadA s.cfg 1)
      let q := fadd (fmul (memReadA s.cfg 2) r) (memReadA s.cfg 3)
      let r4 := fmul r2 r2
      let qa := fadd (fmul (memReadA s.cfg 4) r) y0
      let qb := fadd (fmul q r2) qa
      exec (.log2 ix eofs) s = .next (s.answered p rest ⟨.ok, fadd (fmul ya r4) qb, 0, 0⟩)

/-- LOG2 contains RCPLK as its first stage: from RCPLK's three lanes alone its answer follows (60_exceptions.md
section 4: RCPLK exposes the intermediate stage of LOG2). -/
def Obligations.Log2ContainsRcplk : Prop :=
  ∀ (ix : Word32) (eofs : Int) (s : State) (p : Pending) (rest : List Pending),
    s.cfg.wf = true → s.requests = p :: rest → inContractLog ix = true →
    ∃ r0 r1 r2 : Word64, exec (.rcplk ix) s = .next (s.answered p rest ⟨.ok, r0, r1, r2⟩) ∧
      exec (.log2 ix eofs) s = .next (s.answered p rest
        ⟨.ok, polyLog2 s.cfg (residual (r2.extractLsb' 0 32) r0) r1 ((r2.extractLsb' 32 16).toInt + eofs), 0, 0⟩)

/-- LOG2 never answers an infinity or a NaN, for every well-formed configuration, operand in contract and 32-bit
offset (41_log2.md, the bounds of section 4, which the spec derives). -/
def Obligations.Log2IsAlwaysFinite : Prop :=
  ∀ (ix : Word32) (eofs : Int) (s : State) (p : Pending) (rest : List Pending),
    s.cfg.wf = true → s.requests = p :: rest → inContractLog ix = true → fitsSint32 eofs = true →
    ∃ y, exec (.log2 ix eofs) s = .next (s.answered p rest ⟨.ok, y, 0, 0⟩) ∧ isFinite64 y = true

/-- Under RC0 the logarithm of every power of two is exact, with any offset: the answer is the integer
`e - 127 + eofs`, and +0 when that is 0 (41_log2.md section 4, corner cases; RC0 is 00_scope.md section 4). -/
def Obligations.Log2OfPowerOfTwoIsExact : Prop :=
  ∀ (ix : Word32) (eofs : Int) (s : State) (p : Pending) (rest : List Pending),
    s.cfg = rc0 → s.requests = p :: rest → inContractLog ix = true → fracField32 ix = 0 → fitsSint32 eofs = true →
    ∃ y, exec (.log2 ix eofs) s = .next (s.answered p rest ⟨.ok, y, 0, 0⟩) ∧ isFinite64 y = true ∧
      val64 y = (((expField32 ix : Int) - 127 + eofs : Int) : ℚ) ∧ ((expField32 ix : Int) - 127 + eofs = 0 → y = 0)

/-- The offset counts powers of two: doubling the operand and lowering the offset by one gives the same answer
(41_log2.md section 4: the result is the logarithm of `2^eofs * val32(ix)`). -/
def Obligations.Log2OffsetCountsDoublings : Prop :=
  ∀ (ix : Word32) (eofs : Int) (s : State), s.cfg.wf = true → inContractLog ix = true →
    inContractLog (ix + 0x00800000#32) = true →
    exec (.log2 (ix + 0x00800000#32) (eofs - 1)) s = exec (.log2 ix eofs) s

/-! ## The exp2 path (42_exp2.md) -/

/-- EXPCON of a `k` in contract answers the pattern with sign `sb`, exponent field `1023 + q` and the mantissa of the
table entry `E2T[k mod NE]`, `q = k div NE`: a normal number of value `(-1)^sb * 2^q * val64(E2T[k mod NE])`
(42_exp2.md section 2). -/
def Obligations.ExpconResult : Prop :=
  ∀ (k : Int) (sb : Bool) (s : State) (p : Pending) (rest : List Pending),
    s.cfg.wf = true → s.requests = p :: rest →
    -1021 * (2 : Int) ^ s.cfg.be ≤ k → k ≤ 1023 * (2 : Int) ^ s.cfg.be →
    ∃ e t : Word64, s.cfg.e2t[(k % 2 ^ s.cfg.be).toNat]? = some e ∧
      exec (.expcon k sb) s = .next (s.answered p rest ⟨.ok, t, 0, 0⟩) ∧
      t.msb = sb ∧ (expField64 t : Int) = 1023 + k / 2 ^ s.cfg.be ∧ 2 ≤ expField64 t ∧ expField64 t ≤ 2046 ∧
      fracField64 t = fracField64 e ∧
      val64 t = (if sb then -1 else 1) * (2 : ℚ) ^ (k / 2 ^ s.cfg.be) * val64 e

/-- EXPCON of a `k` outside `[-1021 * NE, 1023 * NE]` and EXP2 of an `xd` out of contract draw `OOC`; the classifier
never does, nor any instruction on an operand in contract (60_exceptions.md section 1). -/
def Obligations.OutOfContractDrawsOoc : Prop :=
  ∀ (s : State) (p : Pending) (rest : List Pending), s.cfg.wf = true → s.requests = p :: rest →
    (∀ (k : Int) (sb : Bool), k < -1021 * (2 : Int) ^ s.cfg.be ∨ 1023 * (2 : Int) ^ s.cfg.be < k →
      exec (.expcon k sb) s = .next (s.answered p rest ⟨.ooc, 0, 0, 0⟩)) ∧
    (∀ (xd : Word64) (sb : Bool), inContractExp xd = false →
      exec (.exp2 xd sb) s = .next (s.answered p rest ⟨.ooc, 0, 0, 0⟩)) ∧
    (∀ i : Instr, ∃ rsp, exec i s = .next (s.answered p rest rsp) ∧
      (rsp.status = .ooc ↔ (∃ ix, i = .rcplk ix ∧ inContractLog ix = false) ∨
        (∃ ix eofs, i = .log2 ix eofs ∧ inContractLog ix = false) ∨
        (∃ k sb, i = .expcon k sb ∧ inContractExpcon s.cfg k = false) ∨
        (∃ xd sb, i = .exp2 xd sb ∧ inContractExp xd = false)))

/-- The scale factor of EXPCON equals the one computed from the pre-shifted table with one addition
(42_exp2.md section 1, the stored form, which the spec derives). -/
def Obligations.StoredFormGivesTheSameScaleFactor : Prop :=
  ∀ (k : Int) (sb : Bool) (s : State) (p : Pending) (rest : List Pending),
    s.cfg.wf = true → s.requests = p :: rest → inContractExpcon s.cfg k = true →
    ∃ e : Word64, s.cfg.e2t[(k % 2 ^ s.cfg.be).toNat]? = some e ∧
      exec (.expcon k sb) s = .next (s.answered p rest ⟨.ok,
        (e - (BitVec.ofInt 64 (k % 2 ^ s.cfg.be) <<< (52 - s.cfg.be))) +
          ((BitVec.ofInt 64 k + ((BitVec.ofBool sb).setWidth 64 <<< (s.cfg.be + 11))) <<< (52 - s.cfg.be)), 0, 0⟩)

/-- 42_exp2.md R161: `InContractExp(xd)` holds exactly when `xd` is no NaN and `-1021 <= val64(xd) <= 1023`, on patterns
as the rule says, both zeros included; the `k` of the split is then in EXPCON's contract; any other `xd` draws
`OOC`. -/
def Obligations.ExpContract : Prop :=
  ∀ xd : Word64,
    (inContractExp xd = true ↔ isFinite64 xd = true ∧ -1021 ≤ val64 xd ∧ val64 xd ≤ 1023) ∧
    (inContractExp xd = true ↔ (xd.msb = false ∧ (xd &&& 0x7FFFFFFFFFFFFFFF#64).toNat ≤ 0x408FF80000000000) ∨
      (xd.msb = true ∧ (xd &&& 0x7FFFFFFFFFFFFFFF#64).toNat ≤ 0x408FE80000000000)) ∧
    inContractExp 0x0000000000000000#64 = true ∧ inContractExp 0x8000000000000000#64 = true ∧
    (∀ cfg : Config, cfg.wf = true → inContractExp xd = true →
      -1021 * (2 : Int) ^ cfg.be ≤ (split cfg xd).k ∧ (split cfg xd).k ≤ 1023 * (2 : Int) ^ cfg.be) ∧
    (inContractExp xd = false →
      ∀ (s : State) (p : Pending) (rest : List Pending) (sb : Bool), s.requests = p :: rest →
        exec (.exp2 xd sb) s = .next (s.answered p rest ⟨.ooc, 0, 0, 0⟩))

/-- The split: `k` is the integer nearest to `NE * xd`, ties to even; `kd` is exactly `k / NE`, +0 when `k = 0`; `r` is
exactly `xd - k / NE`, of magnitude at most `1 / (2 * NE)` (42_exp2.md section 3). -/
def Obligations.SplitIsExact : Prop :=
  ∀ (cfg : Config) (xd : Word64), cfg.wf = true → inContractExp xd = true →
    let sp := split cfg xd
    IsNearestEven ((2 : ℚ) ^ cfg.be * val64 xd) sp.k ∧
      isFinite64 sp.kd = true ∧ val64 sp.kd = (sp.k : ℚ) / 2 ^ cfg.be ∧ (sp.k = 0 → sp.kd = 0) ∧
      isFinite64 sp.r = true ∧ val64 sp.r = val64 xd - (sp.k : ℚ) / 2 ^ cfg.be ∧
      |val64 sp.r| ≤ 1 / (2 * 2 ^ cfg.be)

/-- The additive trick gives the same `kd` and `r`, and its sum holds `k` in its low bits, for every well-formed
configuration and `xd` in contract (42_exp2.md section 3, "The additive trick", which the spec derives). -/
def Obligations.AdditiveTrickAgreesWithTheSplit : Prop :=
  ∀ (cfg : Config) (xd : Word64), cfg.wf = true → inContractExp xd = true →
    let shift := scaledIntToF64 3 (51 - cfg.be)
    let kd' := fadd xd shift
    fsub kd' shift = (split cfg xd).kd ∧ fsub xd (fsub kd' shift) = (split cfg xd).r ∧
      kd'.extractLsb' 0 51 = BitVec.ofInt 51 (split cfg xd).k

/-- EXP2 of an `xd` in contract answers the polynomial of 42_exp2.md section 3 in that order of rounded operations, times
the scale factor of `k`, where `k` is the integer nearest to `NE * xd`, ties to even. -/
def Obligations.Exp2Result : Prop :=
  ∀ (xd : Word64) (sb : Bool) (s : State) (p : Pending) (rest : List Pending),
    s.cfg.wf = true → s.requests = p :: rest → inContractExp xd = true →
    ∃ (k : Int) (e : Word64), IsNearestEven ((2 : ℚ) ^ s.cfg.be * val64 xd) k ∧
      s.cfg.e2t[(k % 2 ^ s.cfg.be).toNat]? = some e ∧
      let r := fsub xd (scaledIntToF64 k (-(s.cfg.be : Int)))
      let t := e + (BitVec.ofInt 64 (k / 2 ^ s.cfg.be) <<< 52) + ((BitVec.ofBool sb).setWidth 64 <<< 63)
      let z := fadd (fmul (memReadC s.cfg 0) r) (memReadC s.cfg 1)
      let r2 := fmul r r
      let ya := fadd (fmul (memReadC s.cfg 2) r) one64
      let yb := fadd (fmul z r2) ya
      exec (.exp2 xd sb) s = .next (s.answered p rest ⟨.ok, fmul yb t, 0, 0⟩)

/-- EXP2 never answers a NaN, for every well-formed configuration and `xd` in contract (42_exp2.md section 3, the bounds,
which the spec derives). -/
def Obligations.Exp2IsNeverNaN : Prop :=
  ∀ (xd : Word64) (sb : Bool) (s : State) (p : Pending) (rest : List Pending),
    s.cfg.wf = true → s.requests = p :: rest → inContractExp xd = true →
    ∃ y, exec (.exp2 xd sb) s = .next (s.answered p rest ⟨.ok, y, 0, 0⟩) ∧ isNaN64 y = false

/-- Under RC0 every answer of EXP2 is a normal number with the sign of `sb`: no infinity, no subnormal, no zero
(42_exp2.md R158, which the spec derives; RC0 is 00_scope.md section 4). -/
def Obligations.Exp2UnderRc0IsNormal : Prop :=
  ∀ (xd : Word64) (sb : Bool) (s : State) (p : Pending) (rest : List Pending),
    s.cfg = rc0 → s.requests = p :: rest → inContractExp xd = true →
    ∃ y, exec (.exp2 xd sb) s = .next (s.answered p rest ⟨.ok, y, 0, 0⟩) ∧ y.msb = sb ∧
      1 ≤ expField64 y ∧ expField64 y ≤ 2046

/-- When `xd` is exactly `k / NE`, EXP2 answers what EXPCON answers for `k`, for every well-formed configuration
(42_exp2.md section 3, corner cases). -/
def Obligations.Exp2OfExactMultipleIsExpcon : Prop :=
  ∀ (xd : Word64) (k : Int) (sb : Bool) (s : State),
    s.cfg.wf = true → inContractExp xd = true → val64 xd = (k : ℚ) / 2 ^ s.cfg.be →
    exec (.exp2 xd sb) s = exec (.expcon k sb) s

/-- SignBias flips the sign bit of the answer of EXPCON and EXP2 and nothing else (10_state.md section 4, 42_exp2.md
section 3). -/
def Obligations.SignBiasFlipsOnlyTheSign : Prop :=
  ∀ (s : State) (p : Pending) (rest : List Pending), s.cfg.wf = true → s.requests = p :: rest →
    (∀ k : Int, inContractExpcon s.cfg k = true →
      ∃ t, exec (.expcon k false) s = .next (s.answered p rest ⟨.ok, t, 0, 0⟩) ∧
        exec (.expcon k true) s = .next (s.answered p rest ⟨.ok, t ^^^ 0x8000000000000000#64, 0, 0⟩)) ∧
    (∀ xd : Word64, inContractExp xd = true →
      ∃ y, exec (.exp2 xd false) s = .next (s.answered p rest ⟨.ok, y, 0, 0⟩) ∧
        exec (.exp2 xd true) s = .next (s.answered p rest ⟨.ok, y ^^^ 0x8000000000000000#64, 0, 0⟩))

/-! ## Binary64 arithmetic (41_log2.md section 1) -/

/-- `fadd` and `fsub` of finite operands whose exact result is not zero are that result rounded once to nearest, ties
to even (41_log2.md section 1, case (a)). -/
def Obligations.SumIsRoundedToNearestEven : Prop :=
  ∀ a b : Word64, isFinite64 a = true → isFinite64 b = true →
    (val64 a + val64 b ≠ 0 → IsRne (val64 a + val64 b) (fadd a b)) ∧
    (val64 a - val64 b ≠ 0 → IsRne (val64 a - val64 b) (fsub a b))

/-- `fmul` of finite operands whose exact product is not zero is that product rounded once to nearest, ties to even
(41_log2.md section 1, case (a)). -/
def Obligations.ProductIsRoundedToNearestEven : Prop :=
  ∀ a b : Word64, isFinite64 a = true → isFinite64 b = true → val64 a * val64 b ≠ 0 →
    IsRne (val64 a * val64 b) (fmul a b)

/-- The signs of exact zeros: a zero product has the exclusive or of the signs; a zero sum is -0 only when both operands
are -0, so `x - x` is +0 (41_log2.md section 1, case (b)). -/
def Obligations.SignsOfZeroResults : Prop :=
  ∀ a b : Word64, isFinite64 a = true → isFinite64 b = true →
    (val64 a * val64 b = 0 → fmul a b = if a.msb ^^ b.msb then 0x8000000000000000#64 else 0) ∧
    (val64 a + val64 b = 0 → fadd a b =
      if a = 0x8000000000000000#64 ∧ b = 0x8000000000000000#64 then 0x8000000000000000#64 else 0) ∧
    (fsub a a = 0)

/-- 41_log2.md R121: `f32_to_f64` of every finite pattern is exact, with the same sign, and field by field for a normal
one; `int_to_f64` of every integer below `2^53` in magnitude is exact, +0 for 0; `ONE` is 0x3FF0000000000000, of
value 1. -/
def Obligations.ConversionsAreExact : Prop :=
  (∀ x : Word32, isFinite32 x = true →
    isFinite64 (f32ToF64 x) = true ∧ val64 (f32ToF64 x) = val32 x ∧ (f32ToF64 x).msb = x.msb ∧
      (1 ≤ expField32 x → expField64 (f32ToF64 x) = expField32 x + 896 ∧
        fracField64 (f32ToF64 x) = fracField32 x * 2 ^ 29)) ∧
  (∀ n : Int, n.natAbs < 2 ^ 53 → isFinite64 (intToF64 n) = true ∧ val64 (intToF64 n) = n) ∧ intToF64 0 = 0 ∧
  one64 = 0x3FF0000000000000#64 ∧ val64 one64 = 1

/-! ## The host with the block (45_host_dispatcher.md; the host is out of the block's scope, log 12) -/

/-- A correct host never draws a fault: for every well-formed configuration, every `UPPER` up to 1023 and all operands,
`power` returns a value (45_host_dispatcher.md sections 1 and 6). -/
def Obligations.PowerIsTotal : Prop :=
  ∀ (cfg : Config) (h : HostParams) (ix iy : Word32), cfg.wf = true →
    key64 h.upper ≤ key64 0x408FF80000000000#64 → ∃ r, powHost cfg h ix iy = some r

/-- `power(x, 0) = 1` with no condition, for every `x` that is no signalling NaN and either zero `y`
(45_host_dispatcher.md section 2; 95_test_vectors.md S1). -/
def Obligations.PowerOfYZeroIsOne : Prop :=
  ∀ (cfg : Config) (h : HostParams) (ix iy : Word32), cfg.wf = true → mag32 iy = 0 → isSignalling32 ix = false →
    powHost cfg h ix iy = some ⟨0x3F800000#32, none⟩

/-- `power(1, y) = 1` with no condition, under RC0, for every `y` that is no signalling NaN (95_test_vectors.md S2). -/
def Obligations.PowerOfXOneIsOne : Prop :=
  ∀ (h : HostParams) (iy : Word32), isSignalling32 iy = false →
    powHost rc0 h 0x3F800000#32 iy = some ⟨0x3F800000#32, none⟩

/-- A negative finite nonzero base with an exponent that is no integer gives a quiet NaN and the invalid-domain condition
(45_host_dispatcher.md sections 3 and 5). -/
def Obligations.NegativeBaseNeedsAnInteger : Prop :=
  ∀ (cfg : Config) (h : HostParams) (ix iy : Word32), cfg.wf = true → isFinite32 ix = true → ix.msb = true →
    mag32 ix ≠ 0 → isFinite32 iy = true → (∀ n : Int, val32 iy ≠ n) →
    ∃ bits, powHost cfg h ix iy = some ⟨bits, some .invalidDomain⟩ ∧ isNaN32 bits = true ∧ isSignalling32 bits = false

/-- For a positive finite `x` and a finite integer `y` other than 0, `power(-x, y)` is `power(x, y)` with the sign flipped if `y` is odd,
and the same if `y` is even, with the same condition (45_host_dispatcher.md section 3, 95_test_vectors.md
S6). -/
def Obligations.NegatedBaseFlipsTheSignOfOddPowers : Prop :=
  ∀ (cfg : Config) (h : HostParams) (ix iy : Word32) (n : Int) (r : HostResult), cfg.wf = true →
    isFinite32 ix = true → mag32 ix ≠ 0 → ix.msb = false → isFinite32 iy = true → val32 iy = n → n ≠ 0 →
    powHost cfg h ix iy = some r →
    powHost cfg h (ix ^^^ 0x80000000#32) iy =
      some ⟨if n % 2 = 1 then r.bits ^^^ 0x80000000#32 else r.bits, r.condition⟩

/-! ## Powers of two on the exp2 path -/

/-- EXP2 of an integer `n` in contract is exactly `2^n` with the sign of `sb`, for every well-formed configuration whose
table entry 0 is 1.0 (42_exp2.md section 3, corner cases; that `E2T[0]`, which stands for `2^0`, is 1.0 is section 1). -/
def Obligations.Exp2OfIntegerIsThePowerOfTwo : Prop :=
  ∀ (xd : Word64) (n : Int) (sb : Bool) (s : State) (p : Pending) (rest : List Pending),
    s.cfg.wf = true → s.cfg.e2t[0]? = some one64 → s.requests = p :: rest → inContractExp xd = true → val64 xd = n →
    ∃ y, exec (.exp2 xd sb) s = .next (s.answered p rest ⟨.ok, y, 0, 0⟩) ∧ y.msb = sb ∧ isFinite64 y = true ∧
      val64 y = (if sb then -1 else 1) * (2 : ℚ) ^ n
end

