-- ==== Sys2Proof/Laws/Fields.lean ====
section
/-! SUPPORT. The fields of binary32 and binary64 patterns as numbers (00_scope.md R13), so that facts about fields are
linear arithmetic over `toNat`. -/

namespace Sys2Proof.Machine

theorem expField32_eq (b : Word32) : expField32 b = b.toNat / 2 ^ 23 % 2 ^ 8 := by
  simp [expField32, BitVec.extractLsb'_toNat, Nat.shiftRight_eq_div_pow]

theorem fracField32_eq (b : Word32) : fracField32 b = b.toNat % 2 ^ 23 := by
  simp [fracField32, BitVec.extractLsb'_toNat]

theorem expField64_eq (b : Word64) : expField64 b = b.toNat / 2 ^ 52 % 2 ^ 11 := by
  simp [expField64, BitVec.extractLsb'_toNat, Nat.shiftRight_eq_div_pow]

theorem fracField64_eq (b : Word64) : fracField64 b = b.toNat % 2 ^ 52 := by
  simp [fracField64, BitVec.extractLsb'_toNat]

theorem toNat_mag32 (b : Word32) : (mag32 b).toNat = b.toNat % 2 ^ 31 := by
  rw [mag32, BitVec.toNat_and]
  exact Nat.and_two_pow_sub_one_eq_mod b.toNat 31

theorem toNat_mag64 (b : Word64) : (mag64 b).toNat = b.toNat % 2 ^ 63 := by
  rw [mag64, BitVec.toNat_and]
  exact Nat.and_two_pow_sub_one_eq_mod b.toNat 63

theorem msb32_iff (b : Word32) : b.msb = true ↔ 2 ^ 31 ≤ b.toNat := by
  simp [BitVec.msb_eq_decide]

theorem msb64_iff (b : Word64) : b.msb = true ↔ 2 ^ 63 ≤ b.toNat := by
  simp [BitVec.msb_eq_decide]

/-- A pattern is its sign, exponent field and mantissa field. -/
theorem toNat_fields32 (b : Word32) :
    b.toNat = (if b.msb then 2 ^ 31 else 0) + expField32 b * 2 ^ 23 + fracField32 b := by
  have := b.isLt
  have := msb32_iff b
  rw [expField32_eq, fracField32_eq]
  split <;> simp_all <;> omega

theorem toNat_fields64 (b : Word64) :
    b.toNat = (if b.msb then 2 ^ 63 else 0) + expField64 b * 2 ^ 52 + fracField64 b := by
  have := b.isLt
  have := msb64_iff b
  rw [expField64_eq, fracField64_eq]
  split <;> simp_all <;> omega

theorem mag32_fields (b : Word32) : (mag32 b).toNat = expField32 b * 2 ^ 23 + fracField32 b := by
  have := b.isLt
  rw [toNat_mag32, expField32_eq, fracField32_eq]; omega

theorem mag64_fields (b : Word64) : (mag64 b).toNat = expField64 b * 2 ^ 52 + fracField64 b := by
  have := b.isLt
  rw [toNat_mag64, expField64_eq, fracField64_eq]; omega

theorem expField32_lt (b : Word32) : expField32 b < 2 ^ 8 := by rw [expField32_eq]; omega
theorem fracField32_lt (b : Word32) : fracField32 b < 2 ^ 23 := by rw [fracField32_eq]; omega
theorem expField64_lt (b : Word64) : expField64 b < 2 ^ 11 := by rw [expField64_eq]; omega
theorem fracField64_lt (b : Word64) : fracField64 b < 2 ^ 52 := by rw [fracField64_eq]; omega

/-- Flipping the sign changes no magnitude field. -/
theorem toNat_xor_sign32 (b : Word32) : (b ^^^ 0x80000000#32).toNat % 2 ^ 31 = b.toNat % 2 ^ 31 := by
  rw [BitVec.toNat_xor, Nat.xor_mod_two_pow]; simp

theorem toNat_xor_sign64 (b : Word64) : (b ^^^ 0x8000000000000000#64).toNat % 2 ^ 63 = b.toNat % 2 ^ 63 := by
  rw [BitVec.toNat_xor, Nat.xor_mod_two_pow]; simp

theorem msb_xor_sign32 (b : Word32) : (b ^^^ 0x80000000#32).msb = !b.msb := by
  rw [BitVec.msb_xor, show (0x80000000#32).msb = true from by decide, Bool.xor_true]

theorem msb_xor_sign64 (b : Word64) : (b ^^^ 0x8000000000000000#64).msb = !b.msb := by
  rw [BitVec.msb_xor, show (0x8000000000000000#64).msb = true from by decide, Bool.xor_true]

theorem isFinite64_iff (b : Word64) : isFinite64 b = true ↔ expField64 b ≠ 2047 := by simp [isFinite64]
theorem isFinite32_iff (b : Word32) : isFinite32 b = true ↔ expField32 b ≠ 255 := by simp [isFinite32]

/-- Every pattern is finite, infinite or a NaN, and only one of these. -/
theorem classes64 (b : Word64) :
    isFinite64 b = (!isInf64 b && !isNaN64 b) := by
  simp only [isFinite64, isInf64, isNaN64]
  generalize expField64 b = e; generalize fracField64 b = f
  by_cases h : e = 2047 <;> by_cases h' : f = 0 <;> grind

theorem not_isNaN64_of_finite {b : Word64} (h : isFinite64 b = true) : isNaN64 b = false := by
  rw [classes64] at h; simp_all

theorem not_isInf64_of_finite {b : Word64} (h : isFinite64 b = true) : isInf64 b = false := by
  rw [classes64] at h; simp_all

end Sys2Proof.Machine
end

