-- ==== Sys2Proof/Laws/Rounding.lean ====
section
/-! SUPPORT. What rounding does (41_log2.md R120 (a)): the integer rounding of `rneShift` and `scaledRne`, the values of
magnitude patterns, and the one lemma that says everything `round64` does. -/

namespace Sys2Proof.Machine

/-! ### Integers nearest to a rational -/

theorem IsNearestEven.le_of_int {x : ℚ} {k : Int} (h : IsNearestEven x k) (j : Int) : |x - k| ≤ |x - j| := by
  by_cases hj : j = k
  · rw [hj]
  · have h1 : (1 : ℚ) ≤ |(k : ℚ) - j| := by
      have : (1 : ℤ) ≤ |k - j| := Int.one_le_abs (by omega)
      exact_mod_cast this
    have h2 : |(k : ℚ) - j| ≤ |x - k| + |x - j| := by
      have := abs_sub_le (k : ℚ) x j
      rwa [abs_sub_comm (k : ℚ) x] at this
    have := h.near
    linarith

/-- Another integer is equally near only where `k` is even. -/
theorem IsNearestEven.even_of_tie {x : ℚ} {k j : Int} (h : IsNearestEven x k) (hj : |x - j| = |x - k|) (hne : j ≠ k) :
    k % 2 = 0 := by
  apply h.tie
  have h1 : (1 : ℚ) ≤ |(k : ℚ) - j| := by
    have : (1 : ℤ) ≤ |k - j| := Int.one_le_abs (by omega)
    exact_mod_cast this
  have h2 : |(k : ℚ) - j| ≤ |x - k| + |x - j| := by
    have := abs_sub_le (k : ℚ) x j
    rwa [abs_sub_comm (k : ℚ) x] at this
  have := h.near
  linarith

theorem IsNearestEven.neg {x : ℚ} {k : Int} (h : IsNearestEven x k) : IsNearestEven (-x) (-k) := by
  have e : |(-x) - ((-k : Int) : ℚ)| = |x - k| := by
    rw [← abs_neg]; congr 1; push_cast; ring
  exact ⟨by rw [e]; exact h.near, fun ht => by rw [e] at ht; have := h.tie ht; omega⟩

theorem IsNearestEven.of_int (k : Int) : IsNearestEven (k : ℚ) k := by
  constructor <;> norm_num

/-- The nearest integer is monotone, seen from integers: below an integer bound it stays below. -/
theorem IsNearestEven.le_of_le {x : ℚ} {k j : Int} (h : IsNearestEven x k) (hx : x ≤ j) : k ≤ j := by
  by_contra hc
  have h1 := h.near
  have h2 : (j : ℚ) + 1 ≤ k := by exact_mod_cast (by omega : j + 1 ≤ k)
  have h3 := abs_le.mp h1
  linarith

theorem IsNearestEven.ge_of_ge {x : ℚ} {k j : Int} (h : IsNearestEven x k) (hx : (j : ℚ) ≤ x) : j ≤ k := by
  have := (h.neg).le_of_le (j := -j) (by push_cast; linarith)
  omega

/-- `rneShift m d` is the integer nearest to `m / 2^d`, ties to even. -/
theorem rneShift_nearest (m d : Nat) : IsNearestEven ((m : ℚ) / 2 ^ d) (rneShift m d) := by
  have hp : (0 : ℚ) < 2 ^ d := by positivity
  have hm : (m : ℚ) = (m / 2 ^ d : Nat) * 2 ^ d + (m % 2 ^ d : Nat) := by
    exact_mod_cast (Nat.div_add_mod' m (2 ^ d)).symm
  have hr : ((m % 2 ^ d : Nat) : ℚ) < 2 ^ d := by exact_mod_cast Nat.mod_lt m (by positivity)
  have hr0 : (0 : ℚ) ≤ ((m % 2 ^ d : Nat) : ℚ) := by positivity
  generalize hq : m / 2 ^ d = q at *
  generalize hrr : m % 2 ^ d = r at *
  have hx : (m : ℚ) / 2 ^ d = q + r / 2 ^ d := by rw [hm]; field_simp
  have hf0 : (0 : ℚ) ≤ r / 2 ^ d := by positivity
  have hf1 : (r : ℚ) / 2 ^ d < 1 := by rw [div_lt_one hp]; exact hr
  rw [hx]
  unfold rneShift
  rw [hq, hrr]
  have c1 : 2 * r < 2 ^ d ↔ (r : ℚ) / 2 ^ d < 1 / 2 := by
    rw [div_lt_iff₀ hp]; constructor
    · intro h; have : (2 : ℚ) * r < 2 ^ d := by exact_mod_cast h
      linarith
    · intro h; have : (2 : ℚ) * r < 2 ^ d := by linarith
      exact_mod_cast this
  have c2 : 2 * r = 2 ^ d ↔ (r : ℚ) / 2 ^ d = 1 / 2 := by
    rw [div_eq_iff hp.ne']; constructor
    · intro h; have : (2 : ℚ) * r = 2 ^ d := by exact_mod_cast h
      linarith
    · intro h; have : (2 : ℚ) * r = 2 ^ d := by linarith
      exact_mod_cast this
  simp only [c1, c2]
  generalize (r : ℚ) / 2 ^ d = f at *
  split
  · rename_i h
    have e : |(q : ℚ) + f - ((q : Int) : ℚ)| = f := by
      rw [show (q : ℚ) + f - ((q : Int) : ℚ) = f by push_cast; ring, abs_of_nonneg hf0]
    constructor
    · rw [e]; rcases h with h | h <;> linarith
    · intro ht; rw [e] at ht; rcases h with h | h
      · linarith
      · omega
  · rename_i h
    rw [not_or, not_lt, not_and] at h
    have e : |(q : ℚ) + f - (((q + 1 : Nat) : Int) : ℚ)| = 1 - f := by
      rw [show (q : ℚ) + f - (((q + 1 : Nat) : Int) : ℚ) = -(1 - f) by push_cast; ring, abs_neg, abs_of_nonneg (by linarith)]
    constructor
    · rw [e]; linarith [h.1]
    · intro ht; rw [e] at ht; have := h.2 (by linarith); omega

/-- `scaledRne m e u` is the integer nearest to `m * 2^e` in units `2^u`, ties to even. -/
theorem scaledRne_nearest (m : Nat) (e u : Int) :
    IsNearestEven ((m : ℚ) * 2 ^ (e - u)) (scaledRne m e u) := by
  unfold scaledRne
  split
  · rename_i h
    have : (2 : ℚ) ^ (e - u) = 2 ^ (e - u).toNat := by
      rw [← zpow_natCast, Int.toNat_of_nonneg (by omega)]
    rw [this]
    have := IsNearestEven.of_int ((m * 2 ^ (e - u).toNat : Nat) : Int)
    push_cast at this ⊢; exact this
  · rename_i h
    have : (2 : ℚ) ^ (e - u) = 1 / 2 ^ (u - e).toNat := by
      rw [one_div, ← zpow_natCast, ← zpow_neg]; congr 1; omega
    rw [this, mul_one_div]
    exact rneShift_nearest m _

/-! ### The values of magnitude patterns -/

/-- The value of a magnitude pattern `M`; of the pattern of infinity, `2^1024`. -/
def magVal (M : Nat) : ℚ :=
  if M / 2 ^ 52 = 0 then (M : ℚ) * 2 ^ (-1074 : ℤ)
  else ((2 ^ 52 + M % 2 ^ 52 : Nat) : ℚ) * 2 ^ (((M / 2 ^ 52 : Nat) : ℤ) - 1075)

theorem val64_eq (b : Word64) : val64 b = (if b.msb then -1 else 1) * magVal (mag64 b).toNat := by
  have h1 := mag64_fields b
  have h2 := fracField64_lt b
  have hd : (mag64 b).toNat / 2 ^ 52 = expField64 b := by omega
  have hm : (mag64 b).toNat % 2 ^ 52 = fracField64 b := by omega
  unfold val64 Unpacked.val unpack64 magVal
  rw [hd, hm]
  split
  · rename_i h
    rw [h] at h1
    have : (mag64 b).toNat = fracField64 b := by omega
    rw [this, mul_assoc]
  · rw [mul_assoc]

/-- The value of a pattern on the grid of units `2^(U - 1074)`. -/
theorem magVal_grid (U n : Nat) (h : n ≤ 2 ^ 53) (h' : U = 0 ∨ 2 ^ 52 ≤ n) :
    magVal (U * 2 ^ 52 + n) = (n : ℚ) * 2 ^ ((U : ℤ) - 1074) := by
  unfold magVal
  rcases Nat.lt_or_ge n (2 ^ 52) with hn | hn
  · have hU : U = 0 := by omega
    subst hU
    rw [if_pos (by omega)]; simp
  rcases Nat.eq_or_lt_of_le h with he | hl
  · subst he
    have e1 : (U * 2 ^ 52 + 2 ^ 53) / 2 ^ 52 = U + 2 := by omega
    have e2 : (U * 2 ^ 52 + 2 ^ 53) % 2 ^ 52 = 0 := by omega
    rw [e1, e2, if_neg (by omega)]
    push_cast
    rw [show ((U : ℤ) + 2 - 1075) = (U - 1074) + 1 by ring, zpow_add_one₀ (by norm_num)]
    ring
  · have e1 : (U * 2 ^ 52 + n) / 2 ^ 52 = U + 1 := by omega
    have e2 : (U * 2 ^ 52 + n) % 2 ^ 52 = n - 2 ^ 52 := by omega
    rw [e1, e2, if_neg (by omega), show 2 ^ 52 + (n - 2 ^ 52) = n by omega]
    push_cast
    rw [show ((U : ℤ) + 1 - 1075) = U - 1074 by ring]

/-- Every magnitude pattern is a number of units on a grid. -/
theorem exists_grid (M : Nat) : ∃ U n, M = U * 2 ^ 52 + n ∧ n < 2 ^ 53 ∧ (U = 0 ∨ 2 ^ 52 ≤ n) := by
  by_cases h : M / 2 ^ 52 = 0
  · exact ⟨0, M, by omega, by omega, .inl rfl⟩
  · exact ⟨M / 2 ^ 52 - 1, M % 2 ^ 52 + 2 ^ 52, by omega, by omega, .inr (by omega)⟩

theorem magVal_strictMono : StrictMono magVal := by
  refine strictMono_nat_of_lt_succ fun M => ?_
  obtain ⟨U, n, rfl, h1, h2⟩ := exists_grid M
  rw [magVal_grid U n h1.le h2, show U * 2 ^ 52 + n + 1 = U * 2 ^ 52 + (n + 1) by ring,
    magVal_grid U (n + 1) h1 (by omega)]
  have : (0 : ℚ) < 2 ^ ((U : ℤ) - 1074) := by positivity
  push_cast
  nlinarith

theorem magVal_zero : magVal 0 = 0 := by simp [magVal]

theorem magVal_nonneg (M : Nat) : 0 ≤ magVal M := by
  rw [← magVal_zero]; exact magVal_strictMono.monotone (Nat.zero_le M)

theorem magVal_pos {M : Nat} (h : M ≠ 0) : 0 < magVal M := by
  rw [← magVal_zero]; exact magVal_strictMono (Nat.pos_of_ne_zero h)

/-- The pattern of infinity stands where `2^1024` would. -/
theorem magVal_infMag : magVal (infMag 52 11) = 2 ^ (1024 : ℤ) := by
  rw [show infMag 52 11 = 2045 * 2 ^ 52 + 2 ^ 53 by decide, magVal_grid _ _ (by norm_num) (by norm_num)]
  rw [show ((2 ^ 53 : Nat) : ℚ) = 2 ^ (53 : ℤ) by norm_num, ← zpow_add₀ (by norm_num)]
  norm_num

/-! ### What rounding does -/

/-- The grid that `ulpExp` chooses holds `m * 2^e` between `2^52` and `2^53` units, or is the subnormal grid. -/
theorem ulpExp_spec {m : Nat} (hm : m ≠ 0) (e : Int) :
    minExp 52 11 ≤ ulpExp 52 11 m e ∧
    ((m : ℚ) * 2 ^ (e - ulpExp 52 11 m e) < 2 ^ (53 : ℤ)) ∧
    (ulpExp 52 11 m e = minExp 52 11 ∨ (2 : ℚ) ^ (52 : ℤ) ≤ (m : ℚ) * 2 ^ (e - ulpExp 52 11 m e)) := by
  have hl1 : ((2 : ℚ) ^ ((Nat.log2 m : ℕ) : ℤ)) ≤ m := by
    rw [zpow_natCast]; exact_mod_cast Nat.log2_self_le hm
  have hl2 : (m : ℚ) < 2 ^ (((Nat.log2 m : ℕ) : ℤ) + 1) := by
    have : m < 2 ^ (Nat.log2 m + 1) := Nat.lt_log2_self
    have h : (m : ℚ) < 2 ^ (Nat.log2 m + 1) := by exact_mod_cast this
    exact_mod_cast h
  have hu : ulpExp 52 11 m e = max (e + ((Nat.log2 m : ℕ) : ℤ) - 52) (minExp 52 11) := rfl
  generalize ((Nat.log2 m : ℕ) : ℤ) = L at *
  generalize minExp 52 11 = b at *
  have hle : e + L - 52 ≤ ulpExp 52 11 m e := by omega
  refine ⟨by omega, ?_, ?_⟩
  · calc (m : ℚ) * 2 ^ (e - ulpExp 52 11 m e) < 2 ^ (L + 1) * 2 ^ (e - ulpExp 52 11 m e) := by gcongr
      _ = 2 ^ (L + 1 + (e - ulpExp 52 11 m e)) := (zpow_add₀ (by norm_num : (2 : ℚ) ≠ 0) _ _).symm
      _ ≤ 2 ^ (53 : ℤ) := zpow_le_zpow_right₀ (by norm_num) (by omega)
  · rcases le_total (e + L - 52) b with h | h
    · left; omega
    · right
      have : e - ulpExp 52 11 m e = 52 - L := by omega
      rw [this]
      calc (2 : ℚ) ^ (52 : ℤ) = 2 ^ L * 2 ^ (52 - L) := by rw [← zpow_add₀ (by norm_num : (2 : ℚ) ≠ 0)]; congr 1; ring
        _ ≤ m * 2 ^ (52 - L) := by gcongr

/-- The units counted: at most `2^53`, and at least `2^52` above the subnormal grid. -/
theorem scaledRne_range {m : Nat} (hm : m ≠ 0) (e : Int) :
    scaledRne m e (ulpExp 52 11 m e) ≤ 2 ^ 53 ∧
    (ulpExp 52 11 m e = minExp 52 11 ∨ 2 ^ 52 ≤ scaledRne m e (ulpExp 52 11 m e)) := by
  obtain ⟨-, h2, h3⟩ := ulpExp_spec hm e
  have hn := scaledRne_nearest m e (ulpExp 52 11 m e)
  constructor
  · have := hn.le_of_le (j := 2 ^ 53) (by push_cast; exact_mod_cast h2.le)
    exact_mod_cast this
  · rcases h3 with h | h
    · exact .inl h
    · right
      have := hn.ge_of_ge (j := 2 ^ 52) (by push_cast; exact_mod_cast h)
      exact_mod_cast this

theorem roundMag_eq {m : Nat} (hm : m ≠ 0) (e : Int) :
    roundMag 52 11 m e = min ((ulpExp 52 11 m e - minExp 52 11).toNat * 2 ^ 52 + scaledRne m e (ulpExp 52 11 m e))
      (infMag 52 11) := by
  simp [roundMag, hm]

/-- The value before the overflow check: a whole number of units. -/
theorem magVal_unbounded {m : Nat} (hm : m ≠ 0) (e : Int) :
    magVal ((ulpExp 52 11 m e - minExp 52 11).toNat * 2 ^ 52 + scaledRne m e (ulpExp 52 11 m e)) =
      scaledRne m e (ulpExp 52 11 m e) * 2 ^ ulpExp 52 11 m e := by
  have h1 := (ulpExp_spec hm e).1
  have h2 := scaledRne_range hm e
  rw [magVal_grid _ _ h2.1 (by rcases h2.2 with h | h <;> omega)]
  congr 2
  have : minExp 52 11 = -1074 := by decide
  omega

/-- The value before the overflow check is as near as any pattern's, and strictly nearer than every pattern below the
grid's own range. -/
theorem unbounded_nearest {m : Nat} (hm : m ≠ 0) (e : Int) (C : Nat) :
    |(scaledRne m e (ulpExp 52 11 m e) : ℚ) * 2 ^ ulpExp 52 11 m e - (m : ℚ) * 2 ^ e| ≤ |magVal C - (m : ℚ) * 2 ^ e| ∧
    (|magVal C - (m : ℚ) * 2 ^ e| =
        |(scaledRne m e (ulpExp 52 11 m e) : ℚ) * 2 ^ ulpExp 52 11 m e - (m : ℚ) * 2 ^ e| →
      magVal C ≠ scaledRne m e (ulpExp 52 11 m e) * 2 ^ ulpExp 52 11 m e →
      scaledRne m e (ulpExp 52 11 m e) % 2 = 0) := by
  obtain ⟨h1, h2, h3⟩ := ulpExp_spec hm e
  have hn := scaledRne_nearest m e (ulpExp 52 11 m e)
  generalize ulpExp 52 11 m e = u at *
  generalize hnn : scaledRne m e u = n at *
  have hp : (0 : ℚ) < 2 ^ u := by positivity
  obtain ⟨v, hvv⟩ : ∃ v, v = (m : ℚ) * 2 ^ e := ⟨_, rfl⟩
  rw [← hvv]
  have hv : v = ((m : ℚ) * 2 ^ (e - u)) * 2 ^ u := by
    rw [mul_assoc, ← zpow_add₀ (by norm_num : (2 : ℚ) ≠ 0)]; rw [hvv]; congr 2; ring
  generalize (m : ℚ) * 2 ^ (e - u) = x at *
  have hscale : ∀ y : ℚ, |y * 2 ^ u - v| = |x - y| * 2 ^ u := by
    intro y
    rw [hv, ← sub_mul, abs_mul, abs_of_pos hp, abs_sub_comm]
  have hb : minExp 52 11 = -1074 := by decide
  -- every pattern is an integer number of units, or lies below the `2^52` units under the value
  have hC : (∃ j : ℤ, magVal C = j * 2 ^ u) ∨ (magVal C < 2 ^ (52 : ℤ) * 2 ^ u ∧ (2 : ℚ) ^ (52 : ℤ) ≤ x) := by
    obtain ⟨U, k, rfl, hk1, hk2⟩ := exists_grid C
    rw [magVal_grid U k hk1.le hk2]
    by_cases hge : u ≤ (U : ℤ) - 1074
    · left
      refine ⟨k * 2 ^ ((U : ℤ) - 1074 - u).toNat, ?_⟩
      have : (2 : ℚ) ^ ((U : ℤ) - 1074) = 2 ^ ((U : ℤ) - 1074 - u).toNat * 2 ^ u := by
        rw [← zpow_natCast, Int.toNat_of_nonneg (by omega), ← zpow_add₀ (by norm_num : (2 : ℚ) ≠ 0)]; congr 1; ring
      rw [this]; push_cast; ring
    · right
      refine ⟨?_, by rcases h3 with h | h; · omega
                     · exact h⟩
      have hk : (k : ℚ) < 2 ^ (53 : ℤ) := by exact_mod_cast hk1
      calc (k : ℚ) * 2 ^ ((U : ℤ) - 1074) < 2 ^ (53 : ℤ) * 2 ^ ((U : ℤ) - 1074) := by gcongr
        _ = 2 ^ (52 : ℤ) * 2 ^ ((U : ℤ) - 1074 + 1) := by
            rw [← zpow_add₀ (by norm_num : (2 : ℚ) ≠ 0), ← zpow_add₀ (by norm_num : (2 : ℚ) ≠ 0)]; congr 1; ring
        _ ≤ 2 ^ (52 : ℤ) * 2 ^ u := by gcongr <;> [norm_num; omega]
  rcases hC with ⟨j, hj⟩ | ⟨hlt, hx⟩
  · rw [hj, hscale, hscale]
    constructor
    · have := hn.le_of_int j
      exact mul_le_mul_of_nonneg_right (by exact_mod_cast this) hp.le
    · intro ht hne
      have ht' : |x - (j : ℚ)| = |x - ((n : Int) : ℚ)| := by
        have := mul_right_cancel₀ hp.ne' ht; exact_mod_cast this
      have hjn : j ≠ ((n : Nat) : Int) := by
        rintro rfl; exact hne (by simp)
      have := hn.even_of_tie ht' hjn
      omega
  · have h52 : |x - ((n : Int) : ℚ)| ≤ |x - (2 ^ (52 : ℤ) : ℚ)| := by
      have := hn.le_of_int (2 ^ 52); push_cast at this ⊢; exact_mod_cast this
    have hlt' : |x - (2 ^ (52 : ℤ) : ℚ)| * 2 ^ u < |magVal C - v| := by
      rw [abs_of_nonneg (by linarith), abs_sub_comm, abs_of_nonneg (by rw [hv]; nlinarith), hv]
      nlinarith
    have hle : |(n : ℚ) * 2 ^ u - v| < |magVal C - v| := by
      rw [hscale]
      refine lt_of_le_of_lt ?_ hlt'
      exact mul_le_mul_of_nonneg_right (by exact_mod_cast h52) hp.le
    exact ⟨hle.le, fun ht => absurd ht hle.ne'⟩

theorem msb_round64 (neg : Bool) (m : Nat) (e : Int) : (round64 neg m e).msb = neg := by
  show (BitVec.ofBool neg ++ BitVec.ofNat 63 (roundMag 52 11 m e) : BitVec (1 + 63)).msb = neg
  rw [BitVec.msb_append]
  cases neg <;> simp

theorem roundMag_le (m : Nat) (e : Int) : roundMag 52 11 m e ≤ infMag 52 11 := by
  by_cases hm : m = 0
  · simp [roundMag, hm]
  · rw [roundMag_eq hm]; exact min_le_right _ _

theorem toNat_mag_round64 (neg : Bool) (m : Nat) (e : Int) :
    (mag64 (round64 neg m e)).toNat = roundMag 52 11 m e := by
  have h := roundMag_le m e
  have hi : infMag 52 11 = 0x7FF0000000000000 := by decide
  rw [toNat_mag64, round64, BitVec.toNat_append, Nat.or_mod_two_pow, Nat.shiftLeft_eq, Nat.mul_mod_left, Nat.zero_or,
    BitVec.toNat_ofNat]
  omega

theorem isInf64_iff (b : Word64) : isInf64 b = true ↔ (mag64 b).toNat = infMag 52 11 := by
  have h1 := fracField64_lt b
  rw [mag64_fields, show infMag 52 11 = 2047 * 2 ^ 52 by decide]
  simp [isInf64]; omega

theorem isNaN64_iff (b : Word64) : isNaN64 b = true ↔ infMag 52 11 < (mag64 b).toNat := by
  have h1 := fracField64_lt b
  have h2 := expField64_lt b
  rw [mag64_fields, show infMag 52 11 = 2047 * 2 ^ 52 by decide]
  simp [isNaN64]; omega

theorem isFinite64_iff_mag (b : Word64) : isFinite64 b = true ↔ (mag64 b).toNat < infMag 52 11 := by
  have h1 := fracField64_lt b
  have h2 := expField64_lt b
  rw [mag64_fields, show infMag 52 11 = 2047 * 2 ^ 52 by decide, isFinite64_iff]
  omega

/-- Rounding overflows exactly from halfway between the largest finite number and `2^1024`. -/
theorem roundMag_eq_inf_iff {m : Nat} (hm : m ≠ 0) (e : Int) :
    roundMag 52 11 m e = infMag 52 11 ↔ (2 : ℚ) ^ (1024 : ℤ) - 2 ^ (970 : ℤ) ≤ (m : ℚ) * 2 ^ e := by
  rw [roundMag_eq hm, min_eq_right_iff]
  have hval := magVal_unbounded hm e
  have hnear := unbounded_nearest hm e
  obtain ⟨M, hM⟩ : ∃ M, M = (ulpExp 52 11 m e - minExp 52 11).toNat * 2 ^ 52 + scaledRne m e (ulpExp 52 11 m e) := ⟨_, rfl⟩
  rw [← hM] at hval ⊢
  rw [← hval] at hnear
  have hpar : M % 2 = scaledRne m e (ulpExp 52 11 m e) % 2 := by omega
  generalize scaledRne m e (ulpExp 52 11 m e) = n at *
  generalize (m : ℚ) * 2 ^ e = v at *
  have hinf := magVal_infMag
  have hmax : magVal (infMag 52 11 - 1) = 2 ^ (1024 : ℤ) - 2 ^ (971 : ℤ) := by
    rw [show infMag 52 11 - 1 = 2045 * 2 ^ 52 + (2 ^ 53 - 1) by decide, magVal_grid _ _ (by norm_num) (by norm_num),
      show (1024 : ℤ) = 53 + 971 by norm_num, zpow_add₀ (by norm_num)]
    push_cast
    ring
  have h971 : (2 : ℚ) ^ (971 : ℤ) = 2 * 2 ^ (970 : ℤ) := by
    rw [show (971 : ℤ) = 970 + 1 by norm_num, zpow_add_one₀ (by norm_num)]; ring
  have hpos : (0 : ℚ) < 2 ^ (970 : ℤ) := by positivity
  generalize (2 : ℚ) ^ (970 : ℤ) = q at *
  generalize (2 : ℚ) ^ (1024 : ℤ) = T at *
  rw [h971] at hmax
  clear h971
  constructor
  · intro hge
    have h1 : T ≤ magVal M := by rw [← hinf]; exact magVal_strictMono.monotone hge
    have h2 := (hnear (infMag 52 11 - 1)).1
    rw [hmax] at h2
    rcases abs_cases (magVal M - v) with h | h <;> rcases abs_cases (T - 2 * q - v) with h' | h' <;> linarith
  · intro hge
    by_contra hlt
    rw [not_le] at hlt
    have h1 : magVal M ≤ T - 2 * q := by
      rw [← hmax]; exact magVal_strictMono.monotone (by omega)
    have h2 := hnear (infMag 52 11)
    rw [hinf] at h2
    obtain ⟨he, ht⟩ : magVal M = T - 2 * q ∧ |T - v| = |magVal M - v| := by
      have := h2.1
      rcases abs_cases (magVal M - v) with h | h <;> rcases abs_cases (T - v) with h' | h' <;> constructor <;> linarith
    have hMe : M = infMag 52 11 - 1 := magVal_strictMono.injective (by rw [he, hmax])
    have := h2.2 ht (by rw [he]; intro h; linarith)
    rw [← hpar, hMe] at this
    exact absurd this (by decide)

/-- A sign does not change a distance. -/
theorem abs_signed_sub (neg : Bool) (x y : ℚ) :
    |(if neg then -1 else 1) * x - (if neg then -1 else 1) * y| = |x - y| := by
  cases neg
  · simp
  · simp only [if_true]; rw [← abs_neg]; congr 1; ring

/-- Between values of opposite signs the distance is the sum of the magnitudes. -/
theorem abs_opposite_sub {s t : Bool} (h : s ≠ t) {x y : ℚ} (hx : 0 ≤ x) (hy : 0 ≤ y) :
    |(if s then -1 else 1) * x - (if t then -1 else 1) * y| = x + y := by
  cases s <;> cases t
  · exact absurd rfl h
  · rw [abs_of_nonneg] <;> simp; linarith
  · rw [abs_of_nonpos] <;> simp <;> linarith
  · exact absurd rfl h

/-- EVERYTHING ROUNDING DOES: `round64` of a nonzero exact value is that value rounded to nearest, ties to even
(41_log2.md R120 (a)). -/
theorem round64_isRne (neg : Bool) {m : Nat} (hm : m ≠ 0) (e : Int) :
    IsRne ((if neg then -1 else 1) * ((m : ℚ) * 2 ^ e)) (round64 neg m e) := by
  have hvpos : (0 : ℚ) < (m : ℚ) * 2 ^ e := by
    have : (0 : ℚ) < m := by exact_mod_cast Nat.pos_of_ne_zero hm
    positivity
  have hmag := toNat_mag_round64 neg m e
  have hmsb := msb_round64 neg m e
  have hval : roundMag 52 11 m e < infMag 52 11 → magVal (roundMag 52 11 m e) =
      scaledRne m e (ulpExp 52 11 m e) * 2 ^ ulpExp 52 11 m e := by
    intro h
    rw [roundMag_eq hm] at h ⊢
    rw [min_eq_left (by omega), magVal_unbounded hm]
  have hpar : roundMag 52 11 m e < infMag 52 11 →
      roundMag 52 11 m e % 2 = scaledRne m e (ulpExp 52 11 m e) % 2 := by
    intro h
    rw [roundMag_eq hm] at h ⊢
    rw [min_eq_left (by omega)]; omega
  have hnear := unbounded_nearest hm e
  refine ⟨?_, ?_, ?_, ?_, ?_⟩
  · rw [hmsb]; cases neg <;> simp
    · exact hvpos.le
    · exact hvpos
  · rw [← Bool.not_eq_true, isNaN64_iff, hmag, not_lt]; exact roundMag_le m e
  · rw [isInf64_iff, hmag, roundMag_eq_inf_iff hm]
    have : |(if neg then -1 else 1) * ((m : ℚ) * 2 ^ e)| = (m : ℚ) * 2 ^ e := by
      cases neg <;> simp [abs_of_pos hvpos]
    rw [this]
  · intro hf c _
    rw [isFinite64_iff_mag, hmag] at hf
    rw [val64_eq, val64_eq c, hmsb, hmag, abs_signed_sub, hval hf]
    by_cases hs : c.msb = neg
    · rw [hs, abs_signed_sub]; exact (hnear _).1
    · refine le_trans (hnear 0).1 ?_
      rw [magVal_zero, zero_sub, abs_neg, abs_of_pos hvpos]
      have := magVal_nonneg (mag64 c).toNat
      rw [abs_opposite_sub hs (magVal_nonneg _) hvpos.le]; linarith
  · intro hf c _ ht hne
    have hf' := hf
    rw [isFinite64_iff_mag, hmag] at hf
    have hbit : (round64 neg m e).getLsbD 0 = decide (roundMag 52 11 m e % 2 = 1) := by
      have h1 := toNat_mag64 (round64 neg m e)
      rw [hmag] at h1
      rw [BitVec.getLsbD, Nat.testBit_zero]
      congr 1
      rw [h1]; simp
    suffices scaledRne m e (ulpExp 52 11 m e) % 2 = 0 by
      rw [hbit, hpar hf, this]; rfl
    rw [val64_eq, val64_eq (round64 neg m e), hmsb, hmag, abs_signed_sub, hval hf] at ht
    rw [val64_eq, val64_eq (round64 neg m e), hmsb, hmag, hval hf] at hne
    by_cases hs : c.msb = neg
    · rw [hs, abs_signed_sub] at ht
      rw [hs] at hne
      exact (hnear _).2 ht (fun h => hne (by rw [h]))
    · have h0 := (hnear 0).1
      rw [magVal_zero, zero_sub, abs_neg, abs_of_pos hvpos] at h0
      have hc0 := magVal_nonneg (mag64 c).toNat
      rw [abs_opposite_sub hs (magVal_nonneg _) hvpos.le] at ht
      have hz : magVal (mag64 c).toNat = 0 := by linarith
      refine (hnear 0).2 (by rw [magVal_zero, zero_sub, abs_neg, abs_of_pos hvpos]; linarith) (fun h => hne ?_)
      rw [hz, ← h, magVal_zero]; simp

end Sys2Proof.Machine
end

