-- ==== Sys2Proof/Laws/Arith.lean ====
section
/-! SUPPORT. The primitives on finite operands: which exact integer each one rounds, how rounding respects bounds, and
where it is exact (41_log2.md R120, R121). -/

namespace Sys2Proof.Machine

/-! ### Rounding respects patterns -/

/-- Rounding a value at most that of pattern `M` gives a pattern at most `M`. -/
theorem roundMag_le_of_le {m : Nat} {e : Int} {M : Nat} (h : (m : ℚ) * 2 ^ e ≤ magVal M) : roundMag 52 11 m e ≤ M := by
  by_cases hm : m = 0
  · simp [roundMag, hm]
  rw [roundMag_eq hm]
  refine le_trans (min_le_left _ _) ?_
  have h1 := (unbounded_nearest hm e M).1
  rw [← magVal_unbounded hm, abs_of_nonneg (by linarith : 0 ≤ magVal M - (m : ℚ) * 2 ^ e)] at h1
  have h2 := le_abs_self (magVal ((ulpExp 52 11 m e - minExp 52 11).toNat * 2 ^ 52 +
    scaledRne m e (ulpExp 52 11 m e)) - (m : ℚ) * 2 ^ e)
  exact magVal_strictMono.le_iff_le.mp (by linarith)

/-- Rounding a value at least that of pattern `M` gives a pattern at least `M`. -/
theorem le_roundMag_of_le {m : Nat} {e : Int} {M : Nat} (h : magVal M ≤ (m : ℚ) * 2 ^ e) (hM : M ≤ infMag 52 11) :
    M ≤ roundMag 52 11 m e := by
  by_cases hm : m = 0
  · rw [hm, Nat.cast_zero, zero_mul] at h
    by_contra hc
    have := magVal_pos (M := M) (by omega)
    linarith
  rw [roundMag_eq hm]
  refine le_min ?_ hM
  have h1 := (unbounded_nearest hm e M).1
  rw [← magVal_unbounded hm, abs_of_nonpos (by linarith : magVal M - (m : ℚ) * 2 ^ e ≤ 0)] at h1
  have h2 := neg_abs_le (magVal ((ulpExp 52 11 m e - minExp 52 11).toNat * 2 ^ 52 +
    scaledRne m e (ulpExp 52 11 m e)) - (m : ℚ) * 2 ^ e)
  exact magVal_strictMono.le_iff_le.mp (by linarith)

/-- The value of a pattern rounds to that pattern. -/
theorem roundMag_of_eq {m : Nat} {e : Int} {M : Nat} (h : (m : ℚ) * 2 ^ e = magVal M) (hM : M ≤ infMag 52 11) :
    roundMag 52 11 m e = M :=
  le_antisymm (roundMag_le_of_le h.le) (le_roundMag_of_le h.ge hM)

/-- The pattern of a power of two. -/
theorem magVal_two_pow (k : ℤ) (h : -1022 ≤ k) : magVal ((k + 1023).toNat * 2 ^ 52) = 2 ^ k := by
  have e : (k + 1023).toNat * 2 ^ 52 = (k + 1022).toNat * 2 ^ 52 + 2 ^ 52 := by omega
  rw [e, magVal_grid _ _ (by norm_num) (.inr le_rfl), Int.toNat_of_nonneg (by omega)]
  rw [show ((2 ^ 52 : Nat) : ℚ) = 2 ^ (52 : ℤ) by norm_num, ← zpow_add₀ (by norm_num)]
  congr 1; ring

theorem val64_round64 (neg : Bool) (m : Nat) (e : Int) :
    val64 (round64 neg m e) = (if neg then -1 else 1) * magVal (roundMag 52 11 m e) := by
  rw [val64_eq, msb_round64, toNat_mag_round64]

theorem isFinite64_round64 (neg : Bool) (m : Nat) (e : Int) :
    isFinite64 (round64 neg m e) = true ↔ roundMag 52 11 m e < infMag 52 11 := by
  rw [isFinite64_iff_mag, toNat_mag_round64]

theorem isNaN64_round64 (neg : Bool) (m : Nat) (e : Int) : isNaN64 (round64 neg m e) = false := by
  rw [← Bool.not_eq_true, isNaN64_iff, toNat_mag_round64, not_lt]; exact roundMag_le m e

/-- Two patterns with the same sign and magnitude are one. -/
theorem eq_of_msb_mag {a b : Word64} (h1 : a.msb = b.msb) (h2 : (mag64 a).toNat = (mag64 b).toNat) : a = b := by
  apply BitVec.eq_of_toNat_eq
  have ha := msb64_iff a
  have hb := msb64_iff b
  have := a.isLt
  have := b.isLt
  rw [toNat_mag64, toNat_mag64] at h2
  rw [h1] at ha
  by_cases h : b.msb = true <;> simp [h] at ha hb <;> omega

/-- A value is finite and of magnitude at most `2^k`. -/
def BoundedBy (k : ℤ) (x : Word64) : Prop := isFinite64 x = true ∧ |val64 x| ≤ 2 ^ k

theorem BoundedBy.mono {k l : ℤ} {x : Word64} (h : BoundedBy k x) (hl : k ≤ l) : BoundedBy l x :=
  ⟨h.1, h.2.trans (zpow_le_zpow_right₀ (by norm_num) hl)⟩

theorem abs_signed (neg : Bool) {x : ℚ} (h : 0 ≤ x) : |(if neg then -1 else 1) * x| = x := by
  cases neg <;> simp [abs_of_nonneg h]

theorem abs_val64 (x : Word64) : |val64 x| = magVal (mag64 x).toNat := by
  rw [val64_eq, abs_signed _ (magVal_nonneg _)]

/-- Rounding keeps a bound that is a power of two. -/
theorem round64_boundedBy (neg : Bool) {m : Nat} {e k : ℤ} (h : (m : ℚ) * 2 ^ e ≤ 2 ^ k) (hk : -1022 ≤ k)
    (hk' : k ≤ 1023) : BoundedBy k (round64 neg m e) := by
  rw [← magVal_two_pow k hk] at h
  have h1 := roundMag_le_of_le h
  refine ⟨?_, ?_⟩
  · rw [isFinite64_round64, show infMag 52 11 = 2047 * 2 ^ 52 by decide]; omega
  · rw [abs_val64, toNat_mag_round64, ← magVal_two_pow k hk]
    exact magVal_strictMono.monotone h1

/-- Rounding is exact on fewer than 54 significant bits above the subnormal unit, below overflow. -/
theorem val64_round64_exact (neg : Bool) {m : Nat} {e : ℤ} (hm : m < 2 ^ 53) (he : -1074 ≤ e)
    (h : (m : ℚ) * 2 ^ e < 2 ^ (1024 : ℤ)) :
    isFinite64 (round64 neg m e) = true ∧ val64 (round64 neg m e) = (if neg then -1 else 1) * ((m : ℚ) * 2 ^ e) := by
  by_cases h0 : m = 0
  · subst h0
    have hr : roundMag 52 11 0 e = 0 := by simp [roundMag]
    rw [isFinite64_round64, val64_round64, hr, magVal_zero]
    simp [show infMag 52 11 = 2047 * 2 ^ 52 by decide]
  have hu : ulpExp 52 11 m e ≤ e := by
    have : Nat.log2 m ≤ 52 := by
      have := (Nat.log2_lt h0).mpr hm; omega
    unfold ulpExp
    rw [show minExp 52 11 = -1074 by decide]
    omega
  have hv := magVal_unbounded h0 e
  have hs : (scaledRne m e (ulpExp 52 11 m e) : ℚ) * 2 ^ ulpExp 52 11 m e = m * 2 ^ e := by
    rw [scaledRne, if_pos hu]
    push_cast
    rw [mul_assoc, ← zpow_natCast, Int.toNat_of_nonneg (by omega), ← zpow_add₀ (by norm_num : (2 : ℚ) ≠ 0)]
    congr 2; ring
  rw [hs] at hv
  rw [← magVal_infMag, ← hv] at h
  have hlt := magVal_strictMono.lt_iff_lt.mp h
  rw [isFinite64_round64, val64_round64, roundMag_of_eq hv.symm hlt.le]
  exact ⟨hlt, by rw [hv]⟩

/-! ### Unpacked values -/

theorem val_unpack (u : Unpacked) : Unpacked.val u = (signedSig u : ℚ) * 2 ^ u.exp := by
  cases hu : u.neg <;> simp [Unpacked.val, signedSig, hu]

theorem val64_unpack (b : Word64) : val64 b = (signedSig (unpack64 b) : ℚ) * 2 ^ (unpack64 b).exp := val_unpack _

theorem unpack64_neg (b : Word64) : (unpack64 b).neg = b.msb := by unfold unpack64; split <;> rfl
theorem unpack32_neg (b : Word32) : (unpack32 b).neg = b.msb := by unfold unpack32; split <;> rfl

theorem unpack64_sig_lt (b : Word64) : (unpack64 b).sig < 2 ^ 53 := by
  have := fracField64_lt b
  unfold unpack64; split <;> simp <;> omega

theorem unpack64_exp_ge (b : Word64) : -1074 ≤ (unpack64 b).exp := by
  unfold unpack64; split <;> simp; omega

theorem natAbs_signedSig (u : Unpacked) : (signedSig u).natAbs = u.sig := by
  unfold signedSig; split <;> simp

/-- A finite pattern rounds to itself. -/
theorem round64_unpack64 {b : Word64} (h : isFinite64 b = true) :
    round64 (unpack64 b).neg (unpack64 b).sig (unpack64 b).exp = b := by
  rw [isFinite64_iff_mag] at h
  apply eq_of_msb_mag
  · rw [msb_round64, unpack64_neg]
  · rw [toNat_mag_round64]
    refine roundMag_of_eq ?_ h.le
    have h1 := abs_val64 b
    rw [val64, Unpacked.val, mul_assoc, abs_signed _ (by positivity)] at h1
    exact h1

/-- The magnitude is zero exactly where the value is. -/
theorem val64_eq_zero_iff (b : Word64) : val64 b = 0 ↔ (mag64 b).toNat = 0 := by
  rw [← abs_eq_zero, abs_val64]
  constructor
  · intro h; by_contra hc; exact (magVal_pos hc).ne' h
  · intro h; rw [h, magVal_zero]

theorem sig_eq_zero_iff (b : Word64) : (unpack64 b).sig = 0 ↔ val64 b = 0 := by
  rw [val64, Unpacked.val]
  have : (2 : ℚ) ^ (unpack64 b).exp ≠ 0 := by positivity
  cases (unpack64 b).neg <;> simp [this]

/-- Equal values are equal patterns, but for the two zeros. -/
theorem eq_of_val64_eq {a b : Word64} (h : val64 a = val64 b) (h0 : val64 b ≠ 0) : a = b := by
  have hm : magVal (mag64 a).toNat = magVal (mag64 b).toNat := by rw [← abs_val64, ← abs_val64, h]
  have hb : 0 < magVal (mag64 b).toNat := by rw [← abs_val64]; exact abs_pos.mpr h0
  refine eq_of_msb_mag ?_ (magVal_strictMono.injective hm)
  rw [val64_eq, val64_eq b, hm] at h
  cases ha : a.msb <;> cases hb' : b.msb <;> simp [ha, hb'] at h ⊢ <;> linarith

/-! ### Negation -/

theorem msb_fneg (b : Word64) : (fneg b).msb = !b.msb := msb_xor_sign64 b

theorem mag64_fneg (b : Word64) : (mag64 (fneg b)).toNat = (mag64 b).toNat := by
  rw [toNat_mag64, toNat_mag64]; exact toNat_xor_sign64 b

theorem val64_fneg (b : Word64) : val64 (fneg b) = -val64 b := by
  rw [val64_eq, val64_eq b, msb_fneg, mag64_fneg]
  cases b.msb <;> simp

theorem isFinite64_fneg (b : Word64) : isFinite64 (fneg b) = isFinite64 b := by
  rw [Bool.eq_iff_iff, isFinite64_iff_mag, isFinite64_iff_mag, mag64_fneg]

theorem isNaN64_fneg (b : Word64) : isNaN64 (fneg b) = isNaN64 b := by
  rw [Bool.eq_iff_iff, isNaN64_iff, isNaN64_iff, mag64_fneg]

/-! ### Sums and products of finite operands -/

theorem fadd_finite {a b : Word64} (ha : isFinite64 a = true) (hb : isFinite64 b = true) :
    fadd a b = faddFinite a b := by
  simp [fadd, not_isNaN64_of_finite ha, not_isNaN64_of_finite hb, not_isInf64_of_finite ha, not_isInf64_of_finite hb]

theorem fmul_finite {a b : Word64} (ha : isFinite64 a = true) (hb : isFinite64 b = true) :
    fmul a b = fmulFinite a b := by
  simp [fmul, not_isNaN64_of_finite ha, not_isNaN64_of_finite hb, not_isInf64_of_finite ha, not_isInf64_of_finite hb]

theorem fsub_finite {a b : Word64} (ha : isFinite64 a = true) (hb : isFinite64 b = true) :
    fsub a b = faddFinite a (fneg b) := fadd_finite ha (by rw [isFinite64_fneg]; exact hb)

/-- The integer that a sum rounds, in units of the smaller exponent. -/
def sumSig (a b : Word64) : Int :=
  signedSig (unpack64 a) * 2 ^ ((unpack64 a).exp - min (unpack64 a).exp (unpack64 b).exp).toNat +
    signedSig (unpack64 b) * 2 ^ ((unpack64 b).exp - min (unpack64 a).exp (unpack64 b).exp).toNat

theorem val64_add (a b : Word64) :
    val64 a + val64 b = (sumSig a b : ℚ) * 2 ^ min (unpack64 a).exp (unpack64 b).exp := by
  rw [val64_unpack, val64_unpack b, sumSig]
  push_cast
  rw [add_mul, mul_assoc, mul_assoc, ← zpow_natCast, ← zpow_natCast, Int.toNat_of_nonneg (by omega),
    Int.toNat_of_nonneg (by omega), ← zpow_add₀ (by norm_num : (2 : ℚ) ≠ 0), ← zpow_add₀ (by norm_num : (2 : ℚ) ≠ 0),
    sub_add_cancel, sub_add_cancel]

theorem sumSig_eq_zero_iff (a b : Word64) : sumSig a b = 0 ↔ val64 a + val64 b = 0 := by
  rw [val64_add]
  have : (2 : ℚ) ^ min (unpack64 a).exp (unpack64 b).exp ≠ 0 := by positivity
  simp [this]

theorem faddFinite_of_ne {a b : Word64} (h : sumSig a b ≠ 0) :
    faddFinite a b =
      round64 (decide (sumSig a b < 0)) (sumSig a b).natAbs (min (unpack64 a).exp (unpack64 b).exp) := by
  show (if sumSig a b = 0 then _ else _) = _
  rw [if_neg h]; rfl

theorem faddFinite_of_eq {a b : Word64} (h : sumSig a b = 0) :
    faddFinite a b = round64 (a.msb && b.msb && (unpack64 a).sig == 0 && (unpack64 b).sig == 0) 0 0 := by
  rw [← unpack64_neg a, ← unpack64_neg b]
  show (if sumSig a b = 0 then _ else _) = _
  rw [if_pos h]

/-- A signed integer is its sign and its magnitude. -/
theorem sign_mul_natAbs (n : Int) : (if decide (n < 0) then -1 else 1) * (n.natAbs : ℚ) = n := by
  have h : ((n.natAbs : ℤ) : ℚ) = ((|n| : ℤ) : ℚ) := by rw [Int.natCast_natAbs]
  rw [Int.cast_natCast] at h
  rw [h]
  by_cases hn : n < 0
  · simp [hn, abs_of_neg hn]
  · simp [hn, abs_of_nonneg (by omega : 0 ≤ n)]

theorem natAbs_mul_zpow (n : Int) (e : ℤ) : (n.natAbs : ℚ) * 2 ^ e = |(n : ℚ) * 2 ^ e| := by
  rw [abs_mul, abs_of_pos (by positivity : (0 : ℚ) < 2 ^ e)]
  congr 1
  rw [← Int.cast_natCast, Int.natCast_natAbs, Int.cast_abs]

theorem fmulFinite_eq (a b : Word64) :
    fmulFinite a b = round64 (a.msb ^^ b.msb) ((unpack64 a).sig * (unpack64 b).sig)
      ((unpack64 a).exp + (unpack64 b).exp) := by
  rw [← unpack64_neg a, ← unpack64_neg b]; rfl

theorem sig_mul_zpow (b : Word64) : ((unpack64 b).sig : ℚ) * 2 ^ (unpack64 b).exp = |val64 b| := by
  rw [val64, Unpacked.val, mul_assoc, abs_signed _ (by positivity)]

theorem sigs_mul_zpow (a b : Word64) :
    (((unpack64 a).sig * (unpack64 b).sig : Nat) : ℚ) * 2 ^ ((unpack64 a).exp + (unpack64 b).exp) =
      |val64 a * val64 b| := by
  rw [abs_mul, ← sig_mul_zpow, ← sig_mul_zpow, zpow_add₀ (by norm_num)]
  push_cast; ring

/-- A sum of values bounded by `2^k` is bounded by `2^(k+1)`, rounded. -/
theorem fadd_boundedBy {a b : Word64} {k : ℤ} (ha : BoundedBy k a) (hb : BoundedBy k b) (hk : -1023 ≤ k)
    (hk' : k ≤ 1022) : BoundedBy (k + 1) (fadd a b) := by
  rw [fadd_finite ha.1 hb.1]
  by_cases h : sumSig a b = 0
  · rw [faddFinite_of_eq h]
    exact round64_boundedBy _ (by simp; positivity) (by omega) (by omega)
  · rw [faddFinite_of_ne h]
    refine round64_boundedBy _ ?_ (by omega) (by omega)
    rw [natAbs_mul_zpow, ← val64_add, zpow_add_one₀ (by norm_num)]
    have := abs_add_le (val64 a) (val64 b)
    linarith [ha.2, hb.2]

theorem fneg_boundedBy {b : Word64} {k : ℤ} (hb : BoundedBy k b) : BoundedBy k (fneg b) :=
  ⟨by rw [isFinite64_fneg]; exact hb.1, by rw [val64_fneg, abs_neg]; exact hb.2⟩

theorem fmul_boundedBy {a b : Word64} {k l : ℤ} (ha : BoundedBy k a) (hb : BoundedBy l b) (hk : -1022 ≤ k + l)
    (hk' : k + l ≤ 1023) : BoundedBy (k + l) (fmul a b) := by
  rw [fmul_finite ha.1 hb.1, fmulFinite_eq]
  refine round64_boundedBy _ ?_ hk hk'
  rw [sigs_mul_zpow, abs_mul, zpow_add₀ (by norm_num)]
  exact mul_le_mul ha.2 hb.2 (abs_nonneg _) (by positivity)

/-- A product of finite operands is never a NaN. -/
theorem isNaN64_fmul {a b : Word64} (ha : isFinite64 a = true) (hb : isFinite64 b = true) :
    isNaN64 (fmul a b) = false := by
  rw [fmul_finite ha hb, fmulFinite_eq]; exact isNaN64_round64 _ _ _

/-- Where a finite pattern has exactly the sum as its value, the sum is that pattern. -/
theorem fadd_eq_of_val {a b c : Word64} (ha : isFinite64 a = true) (hb : isFinite64 b = true) (hc : isFinite64 c = true)
    (h : val64 a + val64 b = val64 c) (h0 : val64 c ≠ 0) : fadd a b = c := by
  have hs : sumSig a b ≠ 0 := by rw [Ne, sumSig_eq_zero_iff, h]; exact h0
  have hr : roundMag 52 11 (sumSig a b).natAbs (min (unpack64 a).exp (unpack64 b).exp) = (mag64 c).toNat := by
    refine roundMag_of_eq ?_ ((isFinite64_iff_mag c).mp hc).le
    rw [natAbs_mul_zpow, ← val64_add, h, abs_val64]
  rw [fadd_finite ha hb, faddFinite_of_ne hs]
  refine eq_of_val64_eq ?_ h0
  have hn : val64 c = (if decide (sumSig a b < 0) then -1 else 1) * magVal (mag64 c).toNat := by
    rw [← abs_val64, ← h, val64_add, ← natAbs_mul_zpow, ← mul_assoc, sign_mul_natAbs]
  rw [val64_round64, hr, hn]

/-- Where a finite pattern has the product as its value and its sign, the product is that pattern. -/
theorem fmul_eq_of_val {a b c : Word64} (ha : isFinite64 a = true) (hb : isFinite64 b = true) (hc : isFinite64 c = true)
    (h : |val64 a * val64 b| = |val64 c|) (hs : (a.msb ^^ b.msb) = c.msb) : fmul a b = c := by
  rw [fmul_finite ha hb, fmulFinite_eq]
  refine eq_of_msb_mag (by rw [msb_round64, hs]) ?_
  rw [toNat_mag_round64]
  exact roundMag_of_eq (by rw [sigs_mul_zpow, h, abs_val64]) ((isFinite64_iff_mag c).mp hc).le

end Sys2Proof.Machine
end

