-- ==== Sys2Proof/Laws/Config.lean ====
section
/-! SUPPORT. What a well-formed configuration gives: one lemma per constraint of 00_scope.md R7, and reads of the
stores inside their range. -/

namespace Sys2Proof.Config

variable {cfg : Config}

theorem wf_iff : cfg.wf = true ↔ cfg.bl ≤ 16 ∧ cfg.offOk = true ∧ cfg.l2tOk = true ∧ cfg.aOk = true ∧ cfg.be ≤ 16 ∧
    cfg.e2tOk = true ∧ cfg.cOk = true ∧ cfg.powfScale = 1 ∧ 1 ≤ cfg.nports := by
  simp [wf, and_assoc]

theorem wf_bl (h : cfg.wf = true) : cfg.bl ≤ 16 := (wf_iff.mp h).1

theorem wf_be (h : cfg.wf = true) : cfg.be ≤ 16 := (wf_iff.mp h).2.2.2.2.1

theorem wf_nports (h : cfg.wf = true) : 1 ≤ cfg.nports := (wf_iff.mp h).2.2.2.2.2.2.2.2

theorem wf_powfScale (h : cfg.wf = true) : cfg.powfScale = 1 := (wf_iff.mp h).2.2.2.2.2.2.2.1

theorem wf_off (h : cfg.wf = true) : 0x00800000 ≤ cfg.off.toNat ∧ cfg.off.toNat ≤ 0x7F000000 := by
  have := (wf_iff.mp h).2.1
  simpa [offOk, BitVec.ule_eq_decide] using this

theorem wf_l2t_length (h : cfg.wf = true) : cfg.l2t.length = 2 ^ cfg.bl := by
  have := (wf_iff.mp h).2.2.1
  simp [l2tOk] at this; exact this.1

theorem wf_l2t_entry (h : cfg.wf = true) {e : Log2Entry} (he : e ∈ cfg.l2t) :
    magnitudeLe e.invc four64 = true ∧ magnitudeLe e.logc two64 = true := by
  have := (wf_iff.mp h).2.2.1
  simp [l2tOk] at this; exact this.2 e he

theorem wf_a (h : cfg.wf = true) (j : Fin 5) : magnitudeLe (Machine.memReadA cfg j) four64 = true := by
  have := (wf_iff.mp h).2.2.2.1
  simp only [aOk, List.all_eq_true] at this
  exact this _ (by simp [Machine.memReadA])

theorem wf_e2t_length (h : cfg.wf = true) : cfg.e2t.length = 2 ^ cfg.be := by
  have := (wf_iff.mp h).2.2.2.2.2.1
  simp [e2tOk] at this; exact this.1

theorem wf_e2t_entry (h : cfg.wf = true) {e : Word64} (he : e ∈ cfg.e2t) : e.extractLsb' 52 12 = 0x3FF#12 := by
  have := (wf_iff.mp h).2.2.2.2.2.1
  simp [e2tOk] at this; exact this.2 e he

theorem wf_c (h : cfg.wf = true) (j : Fin 3) : magnitudeLe (Machine.memReadC cfg j) four64 = true := by
  have := (wf_iff.mp h).2.2.2.2.2.2.1
  simp only [cOk, List.all_eq_true] at this
  exact this _ (by simp [Machine.memReadC])

/-- The reference configuration is well formed. -/
theorem rc0_wf : rc0.wf = true := by decide

end Sys2Proof.Config

namespace Sys2Proof.Machine

variable {cfg : Config}

/-- In a well-formed configuration a Log2Table read in range gives an entry of the table (20_memory.md R41). -/
theorem memReadL2T_of_lt (h : cfg.wf = true) {i : Nat} (hi : i < cfg.nl) :
    ∃ e, memReadL2T cfg i = some e ∧ e ∈ cfg.l2t := by
  have hl : i < cfg.l2t.length := by rw [Config.wf_l2t_length h]; exact hi
  exact ⟨cfg.l2t[i], by simp [memReadL2T, hl], List.getElem_mem hl⟩

/-- In a well-formed configuration an Exp2Table read in range gives an entry of the table (20_memory.md R41). -/
theorem memReadE2T_of_lt (h : cfg.wf = true) {i : Nat} (hi : i < cfg.ne) :
    ∃ e, memReadE2T cfg i = some e ∧ e ∈ cfg.e2t := by
  have hl : i < cfg.e2t.length := by rw [Config.wf_e2t_length h]; exact hi
  exact ⟨cfg.e2t[i], by simp [memReadE2T, hl], List.getElem_mem hl⟩

end Sys2Proof.Machine
end

