-- ==== Sys2Proof/Laws/Convert.lean ====
section
/-! SUPPORT. Zeros, the conversions (41_log2.md R121) as roundings of exact values, and the bounds that a well-formed
configuration puts on its constants (00_scope.md R7). -/

namespace Sys2Proof.Machine

theorem boundedBy_one64 : BoundedBy 0 one64 := ⟨by decide, by decide +kernel⟩

theorem val64_one64 : val64 one64 = 1 := by decide +kernel

/-- A zero keeps its sign. -/
theorem round64_zero (neg : Bool) (e : Int) : round64 neg 0 e = if neg then 0x8000000000000000#64 else 0 := by
  have : roundMag 52 11 0 e = 0 := by simp [roundMag]
  unfold round64; rw [this]; cases neg <;> decide

/-- The two zeros. -/
theorem eq_zero_or_of_val64 {b : Word64} (h : val64 b = 0) : b = 0 ∨ b = 0x8000000000000000#64 := by
  have := (val64_eq_zero_iff b).mp h
  cases hm : b.msb
  · left; exact eq_of_msb_mag (by rw [hm]; rfl) (by rw [this]; rfl)
  · right; exact eq_of_msb_mag (by rw [hm]; rfl) (by rw [this]; rfl)

/-- Adding a zero to a value that is not zero gives the value. -/
theorem fadd_zero_left {a b : Word64} (ha : val64 a = 0) (hfa : isFinite64 a = true) (hb : isFinite64 b = true) (h :
    val64 b ≠ 0) : fadd a b = b :=
  fadd_eq_of_val hfa hb hb (by rw [ha, zero_add]) h

theorem fadd_zero_right {a b : Word64} (ha : val64 a = 0) (hfa : isFinite64 a = true) (hb : isFinite64 b = true) (h :
    val64 b ≠ 0) : fadd b a = b :=
  fadd_eq_of_val hb hfa hb (by rw [ha, add_zero]) h

theorem fmul_one_left {t : Word64} (h : isFinite64 t = true) : fmul one64 t = t :=
  fmul_eq_of_val (by decide) h h (by rw [val64_one64, one_mul]) (by rw [show one64.msb = false by decide]; simp)

theorem unpack32_sig_lt (b : Word32) : (unpack32 b).sig < 2 ^ 24 := by
  have := fracField32_lt b
  unfold unpack32; split <;> simp <;> omega

theorem unpack32_exp (b : Word32) (h : isFinite32 b = true) : -149 ≤ (unpack32 b).exp ∧ (unpack32 b).exp ≤ 104 := by
  have := expField32_lt b
  rw [isFinite32_iff] at h
  unfold unpack32; split <;> simp <;> omega

/-- A finite binary32 magnitude is below `2^128`. -/
theorem sig32_lt (b : Word32) (h : isFinite32 b = true) : ((unpack32 b).sig :
    ℚ) * 2 ^ (unpack32 b).exp < 2 ^ (128:ℤ) := by
  have h1 := unpack32_exp b h
  have h2 : ((unpack32 b).sig : ℚ) < 2 ^ (24 : ℤ) := by exact_mod_cast unpack32_sig_lt b
  calc _ < (2:ℚ) ^ (24 : ℤ) * 2 ^ (unpack32 b).exp := by gcongr
    _ ≤ 2 ^ (24 : ℤ) * 2 ^ (104 : ℤ) := by gcongr <;> [norm_num; omega]
    _ = _ := by norm_num

/-- The conversion of a finite pattern rounds its exact value. -/
theorem f32ToF64_finite {b : Word32} (h : isFinite32 b = true) :
    f32ToF64 b = round64 b.msb (unpack32 b).sig (unpack32 b).exp := by
  have h' : expField32 b ≠ 255 := (isFinite32_iff b).mp h
  simp [f32ToF64, isNaN32, isInf32, h', unpack32_neg]

/-- `n * 2^e` is exact while `n` has at most 53 bits. -/
theorem scaledIntToF64_val {n : Int} {e : ℤ} (hn : n.natAbs < 2 ^ 53) (he : -1074 ≤ e) (he' : e ≤ 971) :
    isFinite64 (scaledIntToF64 n e) = true ∧ val64 (scaledIntToF64 n e) = n * 2 ^ e := by
  have h : ((n.natAbs : ℚ)) < 2 ^ (53 : ℤ) := by exact_mod_cast hn
  have := val64_round64_exact (decide (n < 0)) (m := n.natAbs) (e := e) hn he (by
    calc _ < (2:ℚ) ^ (53 : ℤ) * 2 ^ e := by gcongr
      _ ≤ 2 ^ (53 : ℤ) * 2 ^ (971 : ℤ) := by gcongr; norm_num
      _ = _ := by rw [← zpow_add₀ (by norm_num)]; norm_num)
  refine ⟨this.1, this.2.trans ?_⟩
  rw [← mul_assoc, sign_mul_natAbs]

theorem scaledIntToF64_zero (e : ℤ) : scaledIntToF64 0 e = 0 := by
  unfold scaledIntToF64
  simp [round64_zero]

theorem boundedBy_of_magnitudeLe {w b : Word64} {k : ℤ} (hb : b.msb = false) (hf : isFinite64 b = true) (hv :
    val64 b ≤ 2 ^ k)
    (h : magnitudeLe w b = true) : BoundedBy k w := by
  have h1 : (mag64 w).toNat ≤ b.toNat := by simpa [magnitudeLe, mag64, BitVec.ule_eq_decide] using h
  have h2 : (mag64 b).toNat = b.toNat := by
    have := msb64_iff b; rw [hb] at this; simp at this; rw [toNat_mag64]; omega
  rw [isFinite64_iff_mag] at hf
  refine ⟨by rw [isFinite64_iff_mag]; omega, ?_⟩
  rw [abs_val64]
  refine le_trans (magVal_strictMono.monotone (h1.trans h2.ge)) ?_
  rw [val64_eq, hb] at hv; simpa using hv

/-- The constants bounded by 4. -/
theorem boundedBy_four {w} (h : magnitudeLe w four64 = true) : BoundedBy 2 w :=
  boundedBy_of_magnitudeLe (by decide) (by decide) (by decide +kernel) h

/-- The constants bounded by 2. -/
theorem boundedBy_two {w} (h : magnitudeLe w two64 = true) : BoundedBy 1 w :=
  boundedBy_of_magnitudeLe (by decide) (by decide) (by decide +kernel) h

end Sys2Proof.Machine
end

