-- ==== Sys2Proof/Laws/Lookup.lean ====
section
/-! SUPPORT. The decomposition on patterns equals the integer quotients that 41_log2.md R125 derives from it. -/

namespace Sys2Proof.Machine

variable {cfg : Config} {ix : Word32}

theorem inContractLog_iff (ix : Word32) :
    inContractLog ix = true ↔ 0x00800000 ≤ ix.toNat ∧ ix.toNat ≤ 0x7F7FFFFF := by
  simp [inContractLog, BitVec.ule_eq_decide]

/-- Masking the low 23 bits away. -/
theorem toNat_and_top (v : Word32) : (v &&& 0xFF800000#32).toNat = v.toNat / 2 ^ 23 * 2 ^ 23 := by
  have h : v &&& 0xFF800000#32 = (v >>> 23) <<< 23 := by
    ext i hi
    simp only [BitVec.getElem_and, BitVec.getElem_shiftLeft]
    have h1 : (0xFF800000#32)[i] = decide (23 ≤ i) := by
      revert i; decide
    rw [h1]
    by_cases hlt : i < 23
    · simp [hlt]
    · have : 23 + (i - 23) = i := by omega
      simp [hlt, this, BitVec.getLsbD_eq_getElem hi]; omega
  rw [h]
  simp [BitVec.toNat_shiftLeft, BitVec.toNat_ushiftRight, Nat.shiftLeft_eq, Nat.shiftRight_eq_div_pow]
  omega

/-- In contract nothing wraps that matters: `k` is the floor quotient (41_log2.md R125). -/
theorem decompose_k (h : cfg.wf = true) (hc : inContractLog ix = true) : (decompose cfg ix).k = logK cfg ix := by
  obtain ⟨h1, h2⟩ := (inContractLog_iff ix).mp hc
  obtain ⟨h3, h4⟩ := Config.wf_off h
  have ht := toNat_and_top (ix - cfg.off)
  have hs : (ix - cfg.off).toNat = (2 ^ 32 - cfg.off.toNat + ix.toNat) % 2 ^ 32 := BitVec.toNat_sub ..
  simp only [decompose, decompTop, logK, BitVec.toInt_eq_toNat_cond, ht]
  split <;> omega

theorem decompose_iz (h : cfg.wf = true) (hc : inContractLog ix = true) :
    ((decompose cfg ix).iz.toNat : Int) = logIz cfg ix := by
  obtain ⟨h1, h2⟩ := (inContractLog_iff ix).mp hc
  obtain ⟨h3, h4⟩ := Config.wf_off h
  have ht := toNat_and_top (ix - cfg.off)
  have hs : (ix - cfg.off).toNat = (2 ^ 32 - cfg.off.toNat + ix.toNat) % 2 ^ 32 := BitVec.toNat_sub ..
  have hd : (ix - decompTop cfg ix).toNat = (2 ^ 32 - (decompTop cfg ix).toNat + ix.toNat) % 2 ^ 32 :=
    BitVec.toNat_sub ..
  simp only [decompose, logIz, logK, hd]
  simp only [decompTop, ht]
  omega

/-- `iz` lies in the reduction interval (41_log2.md R134). -/
theorem logIz_range (h : cfg.wf = true) (hc : inContractLog ix = true) :
    (cfg.off.toNat : Int) ≤ logIz cfg ix ∧ logIz cfg ix ≤ cfg.off.toNat + 0x7FFFFF ∧ logIz cfg ix ≤ 0x7F7FFFFF := by
  obtain ⟨h1, h2⟩ := (inContractLog_iff ix).mp hc
  obtain ⟨h3, h4⟩ := Config.wf_off h
  simp only [logIz, logK]
  omega

theorem decompose_i (h : cfg.wf = true) (hc : inContractLog ix = true) :
    ((decompose cfg ix).i : Int) = logIndex cfg ix := by
  obtain ⟨h1, h2⟩ := (inContractLog_iff ix).mp hc
  obtain ⟨h3, h4⟩ := Config.wf_off h
  have hb := Config.wf_bl h
  have hs : (ix - cfg.off).toNat = (2 ^ 32 - cfg.off.toNat + ix.toNat) % 2 ^ 32 := BitVec.toNat_sub ..
  have hdvd : (2 : Nat) ^ 23 = 2 ^ (23 - cfg.bl) * 2 ^ cfg.bl := by rw [← pow_add]; congr 1; omega
  have hfrac : logIz cfg ix - cfg.off.toNat = (((ix - cfg.off).toNat % 2 ^ 23 : Nat) : Int) := by
    simp only [logIz, logK, hs]; omega
  simp only [decompose, logIndex, hfrac, BitVec.toNat_ushiftRight, Nat.shiftRight_eq_div_pow]
  rw [hdvd, Nat.mod_mul, show ((2 : Int) ^ (23 - cfg.bl)) = ((2 ^ (23 - cfg.bl) : Nat) : Int) by push_cast; rfl]
  norm_cast
  rw [Nat.add_mul_div_left _ _ (by positivity), Nat.div_eq_of_lt (Nat.mod_lt _ (by positivity)), Nat.zero_add]

theorem decompose_i_lt : (decompose cfg ix).i < cfg.nl := Nat.mod_lt _ (by positivity)

/-- The exponent fits 16 bits (41_log2.md R126, R134). -/
theorem logK_range (h : cfg.wf = true) (hc : inContractLog ix = true) : -253 ≤ logK cfg ix ∧ logK cfg ix ≤ 253 := by
  obtain ⟨h1, h2⟩ := (inContractLog_iff ix).mp hc
  obtain ⟨h3, h4⟩ := Config.wf_off h
  simp only [logK]
  omega

end Sys2Proof.Machine
end

