-- ==== Sys2Proof/Laws/Kernel.lean ====
section
/-! SUPPORT. The kernels: the contracts as inequalities, the value each instruction answers with where its table has the
entry, and the fields of a scale factor (41_log2.md R129; 42_exp2.md R154, R155, R161). -/

namespace Sys2Proof.Machine

/-- A well-formed table has the entry of every operand. -/
theorem log2Value_eq {cfg : Config} (hw : cfg.wf = true) (ix : Word32) (eofs : Int) :
    ∃ e ∈ cfg.l2t, log2Value cfg ix eofs = some (log2OfEntry cfg (decompose cfg ix) eofs e) := by
  obtain ⟨e, he, hm⟩ := memReadL2T_of_lt hw (i := (decompose cfg ix).i) decompose_i_lt
  exact ⟨e, hm, by simp [log2Value, he]⟩

theorem inContractExpcon_iff {cfg : Config} {k : ℤ} : inContractExpcon cfg k = true ↔ -1021 * (2 : Int) ^ cfg.be ≤ k ∧
    k ≤ 1023 * (2 : Int) ^ cfg.be := by
  simp [inContractExpcon, Config.ne]

/-- In contract the quotient is from -1021 to 1023. -/
theorem expcon_quotient_range {k : ℤ} {be : Nat} (h1 : -1021 * (2 : Int) ^ be ≤ k) (h2 : k ≤ 1023 * (2 : Int) ^ be) :
    -1021 ≤ k / 2^be ∧ k / 2^be ≤ 1023 := by
  have hp : (0:ℤ) < 2^be := by positivity
  exact ⟨(Int.le_ediv_iff_mul_le hp).mpr h1, Int.le_of_lt_add_one ((Int.ediv_lt_iff_lt_mul hp).mpr (by linarith))⟩

/-- A well-formed table has the entry of every `k`. -/
theorem expconValue_eq {cfg : Config} (hw : cfg.wf = true) (k : ℤ) (sb : Bool) :
    ∃ e ∈ cfg.e2t, cfg.e2t[(k % 2 ^ cfg.be).toNat]? = some e ∧ expconValue cfg k sb = some (scaleFactor e (k / 2^cfg.be) sb) := by
  have hp : (0:ℤ) < 2^cfg.be := by positivity
  have hlt : (k % 2 ^ cfg.be).toNat < cfg.ne := by
    have := Int.emod_lt_of_pos k hp; have := Int.emod_nonneg k hp.ne'
    unfold Config.ne; zify; omega
  obtain ⟨e, he, hm⟩ := memReadE2T_of_lt hw hlt
  refine ⟨e, hm, he, ?_⟩
  unfold expconValue
  have : ((cfg.ne : Nat) : ℤ) = 2^cfg.be := by simp [Config.ne]
  rw [this, he]; rfl

theorem toNat_ofInt64 (q : ℤ) : (BitVec.ofInt 64 q).toNat = (q % 2^64).toNat := by simp

/-- No carry or borrow reaches the sign bit. -/
theorem toNat_scaleFactor {e : Word64} {q : ℤ} (sb : Bool) (he : e.extractLsb' 52 12 = 0x3FF#12) (h1 : -1021 ≤ q)
    (h2 : q ≤ 1023) :
    (scaleFactor e q sb).toNat = (if sb then 2^63 else 0) + (1023 + q).toNat * 2^52 + fracField64 e := by
  have h := congrArg BitVec.toNat he
  rw [BitVec.extractLsb'_toNat, Nat.shiftRight_eq_div_pow] at h
  have hlt := e.isLt
  have hs : (signBias sb).toNat = if sb then 2^63 else 0 := by cases sb <;> decide
  have hq : (BitVec.ofInt 64 q <<< 52).toNat = (q % 2^12).toNat * 2^52 := by
    rw [BitVec.toNat_shiftLeft, toNat_ofInt64, Nat.shiftLeft_eq]; omega
  rw [scaleFactor, BitVec.toNat_add, BitVec.toNat_add, hs, hq, fracField64_eq]
  simp at h
  cases sb <;> simp <;> omega

/-- The fields of a scale factor. -/
theorem scaleFactor_fields {e : Word64} {q : ℤ} (sb : Bool) (he : e.extractLsb' 52 12 = 0x3FF#12) (h1 : -1021 ≤ q)
    (h2 : q ≤ 1023) :
    (scaleFactor e q sb).msb = sb ∧ (expField64 (scaleFactor e q sb) : ℤ) = 1023 + q ∧ fracField64 (scaleFactor e q sb) = fracField64 e := by
  have h := toNat_scaleFactor sb he h1 h2
  have hf := fracField64_lt e
  have hm := msb64_iff (scaleFactor e q sb)
  rw [expField64_eq, fracField64_eq (scaleFactor e q sb), h]
  refine ⟨?_, ?_, ?_⟩
  · cases sb <;> simp at h ⊢
    · rw [← Bool.not_eq_true, hm]; omega
    · rw [hm]; omega
  · cases sb <;> simp <;> omega
  · cases sb <;> simp <;> omega

/-- The value of a normal number. -/
theorem val64_normal {b : Word64} (h : expField64 b ≠ 0) :
    val64 b = (if b.msb then -1 else 1) * (2^52 + fracField64 b : ℚ) * 2 ^ ((expField64 b : ℤ) - 1075) := by
  unfold val64 Unpacked.val unpack64; rw [if_neg h]; push_cast; rfl

/-- The contract of EXP2 on magnitudes. -/
theorem inContractExp_iff (xd : Word64) : inContractExp xd = true ↔ (xd.msb = false ∧
    (mag64 xd).toNat ≤ 0x408FF80000000000) ∨
      (xd.msb = true ∧ (mag64 xd).toNat ≤ 0x408FE80000000000) := by
  unfold inContractExp
  cases xd.msb <;> simp [BitVec.ule_eq_decide]

/-- The table has the entry of the split. -/
theorem exp2Value_eq {cfg : Config} (hw : cfg.wf = true) (xd : Word64) (sb : Bool) :
    ∃ e ∈ cfg.e2t, cfg.e2t[((split cfg xd).k % 2 ^ cfg.be).toNat]? = some e ∧
     exp2Value cfg xd sb = some (fmul (polyExp2 cfg (split cfg xd).r) (scaleFactor e ((split cfg xd).k / 2^cfg.be) sb)) := by
  obtain ⟨e, hm, he, hv⟩ := expconValue_eq hw (split cfg xd).k sb
  exact ⟨e, hm, he, by simp [exp2Value, hv]⟩

/-- The nearest integer, ties to even, is one. -/
theorem IsNearestEven.unique {x : ℚ} {k j : ℤ} (h : IsNearestEven x k) (h' : IsNearestEven x j) : k = j := by
  by_contra hne
  have h1 := h.le_of_int j
  have h2 := h'.le_of_int k
  have he := le_antisymm h2 h1
  have e1 := h.even_of_tie he (Ne.symm hne)
  have e2 := h'.even_of_tie he.symm hne
  have ha := abs_le.mp h.near
  have hb := abs_le.mp h'.near
  have hkj : |k - j| ≤ 1 := by
    have : |((k - j : ℤ) : ℚ)| ≤ 1 := by push_cast; rw [abs_le]; constructor <;> linarith
    rw [← Int.cast_abs] at this; exact_mod_cast this
  rw [abs_le] at hkj; omega

/-- Rounding on a known grid. -/
theorem roundMag_grid {m : Nat} (hm : m ≠ 0) {e u : ℤ} {n : Nat} (hu : -1074 ≤ u) 
    (h1 : (2:ℚ)^(52:ℤ) ≤ (m : ℚ) * 2 ^ (e - u)) (h2 : (m : ℚ) * 2 ^ (e - u) < 2 ^ (53:ℤ)) (hn : IsNearestEven ((m : ℚ) * 2 ^ (e - u)) n) :
    roundMag 52 11 m e = min ((u + 1074).toNat * 2^52 + n) (infMag 52 11) := by
  obtain ⟨a1, a2, a3⟩ := ulpExp_spec hm e
  have hb : minExp 52 11 = -1074 := by decide
  have huu : ulpExp 52 11 m e = u := by
    generalize ulpExp 52 11 m e = w at *
    have hp : (0:ℚ) < m := by exact_mod_cast Nat.pos_of_ne_zero hm
    have key : ∀ x y : ℤ, x < y → (m:ℚ) * 2^(e - y) * 2 ≤ m * 2^(e - x) := by
      intro x y hxy
      rw [mul_assoc, ← zpow_add_one₀ (by norm_num)]
      gcongr
      · norm_num
      · omega
    rcases lt_trichotomy w u with h | h | h
    · have := key w u h
      have h53 : (2:ℚ)^(53:ℤ) = 2^(52:ℤ) * 2 := by norm_num
      linarith
    · exact h
    · have := key u w h
      rcases a3 with a3 | a3
      · omega
      · have h53 : (2:ℚ)^(53:ℤ) = 2^(52:ℤ) * 2 := by norm_num
        linarith
  rw [roundMag_eq hm, huu, hb]
  have : scaledRne m e u = n := by
    have := IsNearestEven.unique (scaledRne_nearest m e u) hn
    exact_mod_cast this
  rw [this]; congr 2

end Sys2Proof.Machine
end

