-- ==== Sys2Proof/Laws/State.lean ====
section
/-! SUPPORT. The fields of State after each update, so that no proof unfolds a record update. -/

namespace Sys2Proof.Machine.State

variable (s : State) (p : Pending) (rest : List Pending) (rsp : Response)

@[simp] theorem answered_cfg : (s.answered p rest rsp).cfg = s.cfg := rfl
@[simp] theorem answered_requests : (s.answered p rest rsp).requests = rest := rfl
@[simp] theorem answered_responses : (s.answered p rest rsp).responses = s.responses ++ [⟨p.port, rsp⟩] := rfl
@[simp] theorem answered_resetPending : (s.answered p rest rsp).resetPending = s.resetPending := rfl

@[simp] theorem takeReset_cfg : (takeReset s).cfg = s.cfg := rfl
@[simp] theorem takeReset_requests : (takeReset s).requests = [] := rfl
@[simp] theorem takeReset_responses : (takeReset s).responses = s.responses := rfl
@[simp] theorem takeReset_resetPending : (takeReset s).resetPending = false := rfl

@[simp] theorem assertReset_cfg : s.assertReset.cfg = s.cfg := rfl
@[simp] theorem assertReset_requests : s.assertReset.requests = s.requests := rfl
@[simp] theorem assertReset_responses : s.assertReset.responses = s.responses := rfl
@[simp] theorem assertReset_resetPending : s.assertReset.resetPending = true := rfl

@[simp] theorem submit_cfg (port : Nat) (req : Req) : (s.submit port req).cfg = s.cfg := by
  unfold submit; split <;> rfl

@[simp] theorem submit_responses (port : Nat) (req : Req) : (s.submit port req).responses = s.responses := by
  unfold submit; split <;> rfl

@[simp] theorem submit_resetPending (port : Nat) (req : Req) : (s.submit port req).resetPending = s.resetPending := by
  unfold submit; split <;> rfl

theorem submit_requests (port : Nat) (req : Req) (h : port < s.cfg.nports) :
    (s.submit port req).requests = s.requests ++ [⟨port, req⟩] := by
  unfold submit; simp [h]

@[simp] theorem withFetchWord_cfg (nbits w : Nat) : (s.withFetchWord nbits w).cfg = s.cfg := rfl
@[simp] theorem withFetchWord_requests (nbits w : Nat) :
    (s.withFetchWord nbits w).requests = ⟨0, tableRequest nbits w⟩ :: s.requests := rfl
@[simp] theorem withFetchWord_responses (nbits w : Nat) : (s.withFetchWord nbits w).responses = s.responses := rfl
@[simp] theorem withFetchWord_resetPending (nbits w : Nat) : (s.withFetchWord nbits w).resetPending = false := rfl

@[simp] theorem reset_cfg : State.reset.cfg = rc0 := rfl
@[simp] theorem reset_requests : State.reset.requests = [] := rfl
@[simp] theorem reset_responses : State.reset.responses = [] := rfl
@[simp] theorem reset_resetPending : State.reset.resetPending = false := rfl

theorem responsesOn_answered (port : Nat) :
    (s.answered p rest rsp).responsesOn port = s.responsesOn port ++ (if p.port = port then [rsp] else []) := by
  by_cases h : p.port = port <;> simp [responsesOn, List.filter_append, h]

theorem requestsOn_cons (port : Nat) (h : s.requests = p :: rest) :
    s.requestsOn port = (if p.port = port then [p.req] else []) ++ (s.answered p rest rsp).requestsOn port := by
  by_cases h' : p.port = port <;> simp [requestsOn, h, h']

end Sys2Proof.Machine.State
end

