-- ==== Sys2Proof/Laws/Ops.lean ====
section
/-! SUPPORT. What each shared operation can do, said once. -/

namespace Sys2Proof.Machine

variable {s t : State} {p : Pending} {rest : List Pending}

theorem complete_cons (rsp : Response) (h : s.requests = p :: rest) :
    complete rsp s = .next (s.answered p rest rsp) := by
  simp [complete, h]

theorem complete_nil (rsp : Response) (h : s.requests = []) : complete rsp s = .fault .noRequest := by
  simp [complete, h]

/-- Everything `complete` can do when it answers a next state. -/
theorem complete_eq_next {rsp : Response} (h : complete rsp s = .next t) :
    ∃ p rest, s.requests = p :: rest ∧ t = s.answered p rest rsp := by
  cases hr : s.requests with
  | nil => simp [complete, hr] at h
  | cons p rest =>
    rw [complete_cons rsp hr] at h
    exact ⟨p, rest, rfl, (Host.Outcome.next.inj h).symm⟩

theorem raiseFault_cons (code : FaultCode) (h : s.requests = p :: rest) :
    raiseFault code s = .next (s.answered p rest ⟨faultStatus code, 0, 0, 0⟩) := complete_cons _ h

theorem raiseFault_eq_next {code : FaultCode} (h : raiseFault code s = .next t) :
    ∃ p rest, s.requests = p :: rest ∧ t = s.answered p rest ⟨faultStatus code, 0, 0, 0⟩ := complete_eq_next h

theorem completeRead_some (y : Word64) (h : s.requests = p :: rest) :
    completeRead (some y) s = .next (s.answered p rest ⟨.ok, y, 0, 0⟩) := complete_cons _ h

/-- Everything `completeRead` can do when it answers a next state. -/
theorem completeRead_eq_next {r0 : Option Word64} (h : completeRead r0 s = .next t) :
    ∃ y p rest, r0 = some y ∧ s.requests = p :: rest ∧ t = s.answered p rest ⟨.ok, y, 0, 0⟩ := by
  cases r0 with
  | none => simp [completeRead] at h
  | some y =>
    obtain ⟨p, rest, hr, rfl⟩ := complete_eq_next h
    exact ⟨y, p, rest, rfl, hr, rfl⟩

theorem fetch_nil (h : s.requests = []) : fetch s = .idle := by simp [fetch, h]

theorem fetch_cons (h : s.requests = p :: rest) (hp : p.port < s.cfg.nports) : fetch s = .request p.req := by
  simp [fetch, h, hp]

theorem fetch_badPort (h : s.requests = p :: rest) (hp : ¬ p.port < s.cfg.nports) : fetch s = .badPort := by
  simp [fetch, h, hp]

end Sys2Proof.Machine
end

