-- ==== Sys2Proof/Laws/Request.lean ====
section
/-! SUPPORT. The fields of a packed request, a request from its fields (30_encoding.md R60), and the decoder said by
its fields. -/

namespace Sys2Proof

namespace Req

variable (op : BitVec 8) (b : Word32) (a : Word64) (r : Req)

@[simp] theorem pack_op : Req.op (Req.pack op b a) = op := by
  ext i hi; simp [Req.op, Req.pack]; grind

@[simp] theorem pack_b : Req.b (Req.pack op b a) = b := by
  ext i hi; simp [Req.b, Req.pack]; grind

@[simp] theorem pack_a : Req.a (Req.pack op b a) = a := by
  ext i hi; simp [Req.a, Req.pack]; grind

/-- The sub-fields of the lanes (30_encoding.md R61). -/
theorem aHi_eq : Req.aHi r = (Req.a r).extractLsb' 32 32 := by
  ext i hi; simp [Req.aHi, Req.a]

theorem aLo_eq : Req.aLo r = (Req.a r).extractLsb' 0 32 := by
  ext i hi; simp [Req.aLo, Req.a]

theorem bHi_eq : Req.bHi r = (Req.b r).extractLsb' 1 31 := by
  ext i hi; simp [Req.bHi, Req.b]; grind

theorem sb_eq : Req.sb r = (Req.b r).getLsbD 0 := by
  simp [Req.sb, Req.b]

/-- A request is its three fields. -/
@[simp] theorem pack_fields : Req.pack (Req.op r) (Req.b r) (Req.a r) = r := by
  ext i hi
  simp only [Req.pack, Req.op, Req.b, Req.a]
  grind

end Req

@[simp] theorem laneA32_hi (v : Word32) : (laneA32 v).extractLsb' 32 32 = 0 := by
  ext i hi; simp [laneA32]

@[simp] theorem laneA32_lo (v : Word32) : (laneA32 v).extractLsb' 0 32 = v := by
  ext i hi; simp [laneA32]; grind

theorem laneA32_of_hi_zero (a : Word64) (h : a.extractLsb' 32 32 = 0) : laneA32 (a.extractLsb' 0 32) = a := by
  ext i hi
  have := congrArg (fun v => v.getLsbD (i - 32)) h
  simp [laneA32] at this ⊢
  grind

@[simp] theorem laneSb_hi (sb : Bool) : (laneSb sb).extractLsb' 1 31 = 0 := by cases sb <;> decide

@[simp] theorem laneSb_bit (sb : Bool) : (laneSb sb)[0] = sb := by cases sb <;> decide

theorem laneSb_of_hi_zero (b : Word32) (h : b.extractLsb' 1 31 = 0) : laneSb (b.getLsbD 0) = b := by
  ext i hi
  have := congrArg (fun v => v.getLsbD (i - 1)) h
  simp [laneSb] at this ⊢
  grind

/-- The 32-bit signed integers survive the lane. -/
theorem toInt_ofInt_of_fits {n : Int} (h : fitsSint32 n = true) : (BitVec.ofInt 32 n).toInt = n := by
  simp [fitsSint32] at h
  rw [BitVec.toInt_ofInt]
  exact Int.bmod_eq_of_le (by omega) (by omega)

theorem fits_toInt (v : Word32) : fitsSint32 v.toInt = true := by
  have h1 := v.le_toInt; have h2 := v.toInt_lt
  simp [fitsSint32]; omega

end Sys2Proof
end

