-- ==== Sys2Proof/Laws/PerInstr.lean ====
section
/-! SUPPORT. Statements made instruction by instruction. Family `TableRow`: the encoding of an instruction selects the
instruction's own row of the opcode table (30_encoding.md R64). -/

namespace Sys2Proof.Laws.TableRow

/-- The instruction has a row, and its encoding has that row's match bits under that row's mask. -/
def Statement (i : Instr) : Prop :=
  i.wf = true → ∃ row, i.row? = some row ∧ row.mnemonic = i.mnemonic ∧ encode i &&& row.mask = row.matchBits

/-- Masking a request masks its fields. -/
theorem pack_and_pack (op op' : BitVec 8) (b b' : Word32) (a a' : Word64) :
    Req.pack op b a &&& Req.pack op' b' a' = Req.pack (op &&& op') (b &&& b') (a &&& a') := by
  have h : (op ++ b) &&& (op' ++ b') = (op &&& op') ++ (b &&& b') := BitVec.and_append
  show (op ++ b ++ a) &&& (op' ++ b' ++ a') = _
  exact BitVec.and_append.trans (by rw [h]; rfl)

theorem laneA32_and_hi (v : Word32) : laneA32 v &&& 0xFFFFFFFF00000000#64 = 0 := by
  apply BitVec.eq_of_toNat_eq
  rw [BitVec.toNat_and, laneA32, BitVec.toNat_setWidth, Nat.mod_eq_of_lt (by omega)]
  apply Nat.eq_of_testBit_eq
  intro j
  rw [Nat.testBit_and]
  rcases Nat.lt_or_ge j 32 with h | h
  · have : (0xFFFFFFFF00000000#64).toNat = 2 ^ 32 * 0xFFFFFFFF := by decide
    rw [this, Nat.testBit_two_pow_mul]; simp [Nat.not_le.mpr h]
  · rw [Nat.testBit_lt_two_pow (Nat.lt_of_lt_of_le v.isLt (Nat.pow_le_pow_right (by norm_num) h))]; simp

theorem laneSb_and_hi (sb : Bool) : laneSb sb &&& 0xFFFFFFFE#32 = 0 := by cases sb <;> decide

theorem zinfnan (ix : Word32) : Statement (.zinfnan ix) := fun _ =>
  ⟨_, rfl, rfl, (pack_and_pack 0x01#8 0xFF#8 0 0xFFFFFFFF#32 (laneA32 ix) 0xFFFFFFFF00000000#64).trans
    (by rw [laneA32_and_hi]; decide)⟩

theorem chkint (iy : Word32) : Statement (.chkint iy) := fun _ =>
  ⟨_, rfl, rfl, (pack_and_pack 0x02#8 0xFF#8 0 0xFFFFFFFF#32 (laneA32 iy) 0xFFFFFFFF00000000#64).trans
    (by rw [laneA32_and_hi]; decide)⟩

theorem fclass (ix : Word32) : Statement (.fclass ix) := fun _ =>
  ⟨_, rfl, rfl, (pack_and_pack 0x03#8 0xFF#8 0 0xFFFFFFFF#32 (laneA32 ix) 0xFFFFFFFF00000000#64).trans
    (by rw [laneA32_and_hi]; decide)⟩

theorem rcplk (ix : Word32) : Statement (.rcplk ix) := fun _ =>
  ⟨_, rfl, rfl, (pack_and_pack 0x04#8 0xFF#8 0 0xFFFFFFFF#32 (laneA32 ix) 0xFFFFFFFF00000000#64).trans
    (by rw [laneA32_and_hi]; decide)⟩

theorem log2 (ix : Word32) (eofs : Int) : Statement (.log2 ix eofs) := fun _ =>
  ⟨_, rfl, rfl, (pack_and_pack 0x05#8 0xFF#8 (BitVec.ofInt 32 eofs) 0 (laneA32 ix) 0xFFFFFFFF00000000#64).trans
    (by rw [laneA32_and_hi]; simp; decide)⟩

theorem expcon (k : Int) (sb : Bool) : Statement (.expcon k sb) := fun _ =>
  ⟨_, rfl, rfl, (pack_and_pack 0x06#8 0xFF#8 (laneSb sb) 0xFFFFFFFE#32 (laneA32 (BitVec.ofInt 32 k))
    0xFFFFFFFF00000000#64).trans (by rw [laneA32_and_hi, laneSb_and_hi]; decide)⟩

theorem exp2 (xd : Word64) (sb : Bool) : Statement (.exp2 xd sb) := fun _ =>
  ⟨_, rfl, rfl, (pack_and_pack 0x07#8 0xFF#8 (laneSb sb) 0xFFFFFFFE#32 xd 0).trans
    (by rw [laneSb_and_hi]; simp; decide)⟩

end Sys2Proof.Laws.TableRow
end

