-- ==== Sys2Proof/Laws/Step.lean ====
section
/-! SUPPORT. What an instruction and a step can do, said once, so that no later proof unfolds `exec` or `step`. -/

namespace Sys2Proof.Machine

/-- With a request in front and a well-formed configuration every instruction answers it. -/
theorem exec_cons {i : Instr} {s p rest} (hw : s.cfg.wf = true) (h : s.requests = p :: rest) :
    ∃ rsp, exec i s = .next (s.answered p rest rsp) ∧ rsp.wf = true := by
  have hf : ∀ c, ∃ rsp, raiseFault c s = .next (s.answered p rest rsp) ∧ rsp.wf = true := fun c =>
    ⟨_, raiseFault_cons c h, by cases c <;> rfl⟩
  have hr : ∀ y : Word64, ∃ rsp, completeRead (some y) s = .next (s.answered p rest rsp) ∧ rsp.wf = true := fun y =>
    ⟨_, completeRead_some y h, rfl⟩
  cases i with
  | zinfnan ix => exact ⟨_, complete_cons _ h, rfl⟩
  | chkint ix => exact ⟨_, complete_cons _ h, rfl⟩
  | fclass ix => exact ⟨_, complete_cons _ h, rfl⟩
  | rcplk ix =>
    simp only [exec, execRcplk]; split
    · obtain ⟨e, he, -⟩ := memReadL2T_of_lt hw (i := (decompose s.cfg ix).i) decompose_i_lt
      rw [he]; exact ⟨_, complete_cons _ h, rfl⟩
    · exact hf _
  | log2 ix n =>
    simp only [exec, execLog2]; split
    · obtain ⟨e, he, -⟩ := memReadL2T_of_lt hw (i := (decompose s.cfg ix).i) decompose_i_lt
      simp only [log2Value, he, Option.map_some]; exact hr _
    · exact hf _
  | expcon k sb =>
    simp only [exec, execExpcon]; split
    · obtain ⟨e, he, -⟩ := memReadE2T_of_lt hw (i := (k % (s.cfg.ne : Int)).toNat) (by
        have := Int.emod_lt_of_pos k (b := (s.cfg.ne : Int)) (by positivity)
        have := Int.emod_nonneg k (b := (s.cfg.ne : Int)) (by positivity)
        omega)
      simp only [expconValue, he, Option.map_some]; exact hr _
    · exact hf _
  | exp2 xd sb =>
    simp only [exec, execExp2]; split
    · obtain ⟨e, he, -⟩ := memReadE2T_of_lt hw (i := ((split s.cfg xd).k % (s.cfg.ne : Int)).toNat) (by
        have := Int.emod_lt_of_pos (split s.cfg xd).k (b := (s.cfg.ne : Int)) (by positivity)
        have := Int.emod_nonneg (split s.cfg xd).k (b := (s.cfg.ne : Int)) (by positivity)
        omega)
      simp only [exp2Value, expconValue, he, Option.map_some]; exact hr _
    · exact hf _

/-- Everything an instruction can do when it answers a next state: answer the request in front. -/
theorem exec_next {i : Instr} {s t} (h : exec i s = .next t) :
    ∃ p rest rsp, s.requests = p :: rest ∧ t = s.answered p rest rsp ∧ rsp.wf = true := by
  have hf : ∀ c, raiseFault c s = .next t → ∃ p rest rsp, s.requests = p :: rest ∧ t = s.answered p rest rsp ∧ rsp.wf = true := fun c h => by
    obtain ⟨p, rest, h1, h2⟩ := raiseFault_eq_next h
    exact ⟨p, rest, _, h1, h2, by cases c <;> rfl⟩
  have hr : ∀ y, completeRead y s = .next t → ∃ p rest rsp, s.requests = p :: rest ∧ t = s.answered p rest rsp ∧ rsp.wf = true := fun c h => by
    obtain ⟨y, p, rest, -, h1, h2⟩ := completeRead_eq_next h
    exact ⟨p, rest, _, h1, h2, rfl⟩
  have hc : ∀ a b c, complete (okResponse a b c) s = .next t → ∃ p rest rsp, s.requests = p :: rest ∧ t = s.answered p rest rsp ∧ rsp.wf = true := fun a b c h => by
    obtain ⟨p, rest, h1, h2⟩ := complete_eq_next h
    exact ⟨p, rest, _, h1, h2, rfl⟩
  cases i with
  | zinfnan ix => exact hc _ _ _ h
  | chkint ix => exact hc _ _ _ h
  | fclass ix => exact hc _ _ _ h
  | rcplk ix =>
    simp only [exec, execRcplk] at h; split at h
    · split at h
      · simp at h
      · exact hc _ _ _ h
    · exact hf _ h
  | log2 ix n =>
    simp only [exec, execLog2] at h; split at h
    · exact hr _ h
    · exact hf _ h
  | expcon k sb =>
    simp only [exec, execExpcon] at h; split at h
    · exact hr _ h
    · exact hf _ h
  | exp2 xd sb =>
    simp only [exec, execExp2] at h; split at h
    · exact hr _ h
    · exact hf _ h

/-- Performing a request is its instruction, or `ILLEGAL` where decoding rejects it. -/
theorem perform_cases (req : Req) (s) : (∃ i, decode req = .ok i ∧
    perform req s = exec i s) ∨ (∃ e, decode req = .error e ∧ perform req s = raiseFault .illegal s) := by
  cases h : decode req with
  | ok i => exact .inl ⟨i, rfl, by simp [perform, h]⟩
  | error e => exact .inr ⟨e, rfl, by simp [perform, h]⟩

/-- With a request in front and a well-formed configuration every request is answered. -/
theorem perform_cons {req s p rest} (hw : s.cfg.wf = true) (h : s.requests = p :: rest) :
   ∃ rsp, perform req s = .next (s.answered p rest rsp) ∧ rsp.wf = true := by
  rcases perform_cases req s with ⟨i, hd, he⟩ | ⟨e, hd, he⟩
  · rw [he]; exact exec_cons hw h
  · rw [he]; exact ⟨_, raiseFault_cons _ h, rfl⟩

/-- With a request in front on a port that exists a step performs it. -/
theorem step_cons {s p rest} (hw : s.cfg.wf = true) (hr : s.resetPending = false) (h : s.requests = p :: rest) (hp :
    p.port < s.cfg.nports) :
    step s = perform p.req s := by
  simp [step, hw, hr, fetch_cons h hp]

/-- Everything a step can do when it answers a next state: take reset, wait, or answer the request in front. -/
theorem step_cases {s t} (h : step s = .next t) : s.cfg.wf = true ∧
    (t = takeReset s ∨ t = s ∨ ∃ p rest rsp, s.requests = p :: rest ∧ p.port < s.cfg.nports ∧ t = s.answered p rest rsp ∧ rsp.wf = true) := by
  unfold step at h
  split at h
  · refine ⟨by assumption, ?_⟩
    split at h
    · exact .inl (by simpa using h.symm)
    · unfold fetch at h
      cases hr : s.requests with
      | nil => simp [hr] at h; exact .inr (.inl h.symm)
      | cons p rest =>
        simp [hr] at h
        split at h
        · simp at h
          · rename_i hp; split at hp <;> simp at hp
        · simp at h
        · rename_i req hp
          split at hp <;> simp at hp
          refine .inr (.inr ?_)
          obtain ⟨rsp, h1, h2⟩ := perform_cons (req := req) (s := s) (by assumption) hr
          rw [h1] at h
          exact ⟨p, rest, rsp, rfl, by assumption, by simpa using h.symm, h2⟩
  · simp at h

end Sys2Proof.Machine
end

