-- ==== Sys2Proof/Tests/Slice0.lean ====
section
/-! SUPPORT. The model's own tests: decoding word by word, one transaction each from 95_test_vectors.md, each check of
well-formedness on a term it refuses, and for every obligation with hypotheses a state and operands that meet them. -/

namespace Sys2Proof.Tests

open Sys2Proof Sys2Proof.Machine

-- One declaration after another: each kernel evaluation below would otherwise hold a thread of its own.
set_option Elab.async false

/-- The next state of a result, if it is one. -/
def nextOf : Result → Option State
  | .next t => some t
  | .fault _ => none
  | .refused _ => none

theorem exists_next {r : Result} (h : (nextOf r).isSome = true) : ∃ t, r = .next t := by
  cases r with
  | next t => exact ⟨t, rfl⟩
  | fault _ => simp [nextOf] at h
  | refused _ => simp [nextOf] at h

/-- RC0 with two ports. -/
def cfg2 : Config := { rc0 with nports := 2 }

/-- Requests in flight on two ports: LOG2 of 10.0 on port 1, a reserved code on port 0, EXP2 of 10.0 on port 1. -/
def busy : State :=
  ⟨cfg2, [⟨1, 0x05000000000000000041200000#104⟩, ⟨0, 0x0800000000000000003F800000#104⟩,
    ⟨1, 0x07000000004024000000000000#104⟩], [⟨0, ⟨.ooc, 0, 0, 0⟩⟩], false⟩

/-- The least `OFF` a configuration may have, and the greatest. -/
def cfgLow : Config := { rc0 with off := 0x00800000#32 }
def cfgHigh : Config := { rc0 with off := 0x7F000000#32 }

/-! ### Well-formedness: each check refuses an ill-formed term -/

theorem test_wf_eofs_low : (Instr.log2 0x3F800000#32 (-2147483649)).wf = false := by decide
theorem test_wf_eofs_high : (Instr.log2 0x3F800000#32 2147483648).wf = false := by decide
theorem test_wf_k_low : (Instr.expcon (-2147483649) true).wf = false := by decide
theorem test_wf_k_high : (Instr.expcon 2147483648 false).wf = false := by decide
theorem test_wf_rc0 : rc0.wf = true := by decide +kernel
theorem test_wf_cfg2 : cfg2.wf = true := by decide +kernel
theorem test_wf_off_least : cfgLow.wf = true := by decide +kernel
theorem test_wf_off_greatest : cfgHigh.wf = true := by decide +kernel
theorem test_wf_bl : Config.wf { rc0 with bl := 17 } = false := by decide +kernel
theorem test_wf_off_low : Config.wf { rc0 with off := 0x007FFFFF#32 } = false := by decide +kernel
theorem test_wf_off_high : Config.wf { rc0 with off := 0x7F000001#32 } = false := by decide +kernel
theorem test_wf_l2t_length : Config.wf { rc0 with l2t := rc0L2T.tail } = false := by decide +kernel
theorem test_wf_invc_above_4 :
    Config.wf { rc0 with l2t := ⟨0x4010000000000001#64, 0⟩ :: rc0L2T.tail } = false := by decide +kernel
theorem test_wf_logc_below_minus_2 :
    Config.wf { rc0 with l2t := ⟨0, 0xC000000000000001#64⟩ :: rc0L2T.tail } = false := by decide +kernel
theorem test_wf_a_infinite : Config.wf { rc0 with a := rc0A.set 4 0x7FF0000000000000#64 } = false := by decide +kernel
theorem test_wf_be : Config.wf { rc0 with be := 17 } = false := by decide +kernel
theorem test_wf_e2t_length : Config.wf { rc0 with e2t := rc0E2T.tail } = false := by decide +kernel
theorem test_wf_e2t_field : Config.wf { rc0 with e2t := 0xBFF0000000000000#64 :: rc0E2T.tail } = false := by
  decide +kernel
theorem test_wf_c_nan : Config.wf { rc0 with c := rc0C.set 0 0x7FF8000000000000#64 } = false := by decide +kernel
theorem test_wf_powfScale : Config.wf { rc0 with powfScale := 32 } = false := by decide +kernel
theorem test_wf_nports : Config.wf { rc0 with nports := 0 } = false := by decide +kernel

/-! ### Decoding: words written out from the fields of 30_encoding.md R60, R61, R64 -/

theorem test_decode_zinfnan : decode (0x01#8 ++ 0x00000000#32 ++ 0x00000000FF800000#64) = .ok (.zinfnan 0xFF800000#32) := by
  decide
theorem test_decode_chkint : decode (0x02#8 ++ 0x00000000#32 ++ 0x0000000040400000#64) = .ok (.chkint 0x40400000#32) := by
  decide
theorem test_decode_fclass : decode (0x03#8 ++ 0x00000000#32 ++ 0x000000007F800001#64) = .ok (.fclass 0x7F800001#32) := by
  decide
theorem test_decode_rcplk : decode (0x04#8 ++ 0x00000000#32 ++ 0x0000000041200000#64) = .ok (.rcplk 0x41200000#32) := by
  decide
theorem test_decode_log2 :
    decode (0x05#8 ++ 0xFFFFFFE9#32 ++ 0x0000000000800000#64) = .ok (.log2 0x00800000#32 (-23)) := by decide
theorem test_decode_expcon :
    decode (0x06#8 ++ 0x00000001#32 ++ 0x00000000FFFFED60#64) = .ok (.expcon (-4768) true) := by decide
theorem test_decode_exp2 :
    decode (0x07#8 ++ 0x00000000#32 ++ 0xC022000000000000#64) = .ok (.exp2 0xC022000000000000#64 false) := by decide
/-- R70's example. -/
theorem test_encode_log2 : encode (.log2 0x00800000#32 (-23)) = 0x05FFFFFFE90000000000800000#104 := by decide
theorem test_decodeTableWord : decodeTableWord 104 0x07000000014022000000000000 = some (.exp2 0x4022000000000000#64 true) := by
  decide
theorem test_decodeTableWord_above : decodeTableWord 112 (2 ^ 104 + 0x01000000000000000041200000) = none := by
  decide +kernel

/-! ### Faults (V1, P6) -/

theorem test_reserved_op_zero : blockAnswer rc0 0x00000000000000000000000000#104 = some ⟨.illegal, 0, 0, 0⟩ := by
  decide +kernel
theorem test_illegal_wins_over_ooc : blockAnswer rc0 0x05000000000000000100000000#104 = some ⟨.illegal, 0, 0, 0⟩ := by
  decide +kernel
theorem test_ooc_log2_nan : blockAnswer rc0 0x0500000000000000007FC00000#104 = some ⟨.ooc, 0, 0, 0⟩ := by decide +kernel
theorem test_ooc_exp2_above : blockAnswer rc0 0x0700000000408FF80000000001#104 = some ⟨.ooc, 0, 0, 0⟩ := by
  decide +kernel
theorem test_ooc_expcon_above : blockAnswer rc0 0x06000000000000000000007FE1#104 = some ⟨.ooc, 0, 0, 0⟩ := by
  decide +kernel
/-- V1.11 as a vector: 0x2 followed by 48 zero digits. -/
theorem test_response_bits : Response.toBits ⟨.ooc, 0, 0, 0⟩ = 0x2000000000000000000000000000000000000000000000000#194 := by
  decide +kernel

/-! ### One transaction each (V2 to V6), under RC0 -/

theorem test_zinfnan_minus_zero : blockAnswer rc0 0x01000000000000000080000000#104 = some ⟨.ok, 1, 0, 0⟩ := by
  decide +kernel
theorem test_zinfnan_minus_one : blockAnswer rc0 0x010000000000000000BF800000#104 = some ⟨.ok, 0, 0, 0⟩ := by
  decide +kernel
theorem test_chkint_one : blockAnswer rc0 0x0200000000000000003F800000#104 = some ⟨.ok, 1, 0, 0⟩ := by decide +kernel
theorem test_chkint_infinity : blockAnswer rc0 0x0200000000000000007F800000#104 = some ⟨.ok, 2, 0, 0⟩ := by
  decide +kernel
theorem test_fclass_signalling : blockAnswer rc0 0x0300000000000000007F800001#104 = some ⟨.ok, 2, 0, 0⟩ := by
  decide +kernel
theorem test_fclass_subnormal : blockAnswer rc0 0x03000000000000000080000001#104 = some ⟨.ok, 3, 0, 0⟩ := by
  decide +kernel
/-- R126's example. -/
theorem test_rcplk_ten : blockAnswer rc0 0x04000000000000000041200000#104 =
    some ⟨.ok, 0x3FE9C2D163A1AA2D#64, 0x3FD40645F0C6651C#64, 0x000D00033FA00000#64⟩ := by decide +kernel
/-- R126: `ix = OFF - 1` gives `k = -1`, `i = NL - 1`. -/
theorem test_rcplk_seam : blockAnswer rc0 0x0400000000000000003F32FFFF#104 =
    some ⟨.ok, 0x3FE767DCF5534862#64, 0x3FDCE0A44EB17BCC#64, 0x000FFFFF3FB2FFFF#64⟩ := by decide +kernel
/-- V4.4. -/
theorem test_log2_ten : blockAnswer rc0 0x05000000000000000041200000#104 = some ⟨.ok, 0x400A934F0979B22D#64, 0, 0⟩ := by
  decide +kernel
/-- V4.16. -/
theorem test_log2_offset : blockAnswer rc0 0x05FFFFFFE9000000004B400000#104 =
    some ⟨.ok, 0x3FE2B803473FA5EE#64, 0, 0⟩ := by decide +kernel
/-- V5.4: floor division. -/
theorem test_expcon_minus_one : blockAnswer rc0 0x060000000000000000FFFFFFFF#104 =
    some ⟨.ok, 0x3FEF50765B6E4540#64, 0, 0⟩ := by decide +kernel
/-- V5.15: the top of the contract, negative. -/
theorem test_expcon_top : blockAnswer rc0 0x06000000010000000000007FE0#104 =
    some ⟨.ok, 0xFFE0000000000000#64, 0, 0⟩ := by decide +kernel
/-- V6.10: a tie, to `k = 2`, negative result. -/
theorem test_exp2_tie : blockAnswer rc0 0x07000000013FB4000000000000#104 =
    some ⟨.ok, 0xBFF0E3EC32CCAF02#64, 0, 0⟩ := by decide +kernel
/-- V6.21. -/
theorem test_exp2_near_bottom : blockAnswer rc0 0x0700000001C08FE7FFFFFFFFFF#104 =
    some ⟨.ok, 0x8020000000000163#64, 0, 0⟩ := by decide +kernel

/-! ### Reset, ports and the fetch of a placed word (V7) -/

theorem test_fetch_word : (nextOf (step (State.reset.withFetchWord 104 0x07000000004024000000000000))).map (·.responses) =
    some [⟨0, ⟨.ok, 0x4090000000000000#64, 0, 0⟩⟩] := by decide +kernel
theorem test_reset_drops : (nextOf (step busy.assertReset)).map (·.requests) = some [] := by decide +kernel
theorem test_busy_front : (nextOf (step busy)).map (·.responsesOn 1) =
    some [⟨.ok, 0x400A934F0979B22D#64, 0, 0⟩] := by decide +kernel

/-! ### The host (S6 to S9, P1 to P5) -/

theorem test_power_minus_eight_cubed :
    powHost rc0 repositoryHost 0xC1000000#32 0x40400000#32 = some ⟨0xC4000000#32, none⟩ := by decide +kernel
theorem test_power_subnormal :
    powHost rc0 repositoryHost 0x00000001#32 0x3F800000#32 = some ⟨0x00000001#32, none⟩ := by decide +kernel
theorem test_power_pole :
    powHost rc0 repositoryHost 0x80000000#32 0xC0400000#32 = some ⟨0xFF800000#32, some .pole⟩ := by decide +kernel
theorem test_power_underflow :
    powHost rc0 repositoryHost 0x40000000#32 0xC47A0000#32 = some ⟨0, some .underflow⟩ := by decide +kernel

/-! ### Witnesses: what meets the hypotheses of each obligation -/

/-- DecodeOfEncodeIsTheInstruction, at the ends of the signed operands. -/
theorem witness_encode_wf : (Instr.log2 0x00800000#32 (-2147483648)).wf = true ∧
    (Instr.log2 0x7F7FFFFF#32 2147483647).wf = true ∧ (Instr.expcon (-2147483648) true).wf = true ∧
    (Instr.expcon 2147483647 false).wf = true := by decide

/-- EncodeOfDecodeIsTheRequest and DecodeFollowsTheOpcodeTable. -/
theorem witness_decode_ok : decode 0x0580000000000000003F800000#104 = .ok (.log2 0x3F800000#32 (-2147483648)) :=
    by decide

theorem witness_row : ∃ row ∈ opcodeTable, (0x07000000014022000000000000#104 : Req) &&& row.mask = row.matchBits := by
  decide

/-- StepRunsTheDecodedInstruction, StepAnswersTheRequestInFront, ResponseDependsOnOwnRequestOnly. -/
theorem witness_step : busy.inv = true ∧ busy.cfg.wf = true ∧ busy.resetPending = false ∧
    (∃ p rest, busy.requests = p :: rest ∧ p.port < busy.cfg.nports ∧ decode p.req = .ok (.log2 0x41200000#32 0)) := by
  refine ⟨by decide +kernel, by decide +kernel, rfl, _, _, rfl, by decide, by decide⟩

theorem witness_two_states : ∃ s s' : State, s.inv = true ∧ s'.inv = true ∧ s.resetPending = false ∧
    s'.resetPending = false ∧ s.cfg = s'.cfg ∧ s.requests ≠ s'.requests ∧ (s.requests.head?).map (·.req) = (s'.requests.head?).map (·.req) :=
  ⟨busy, State.lone cfg2 0x05000000000000000041200000#104, by decide +kernel⟩

/-- ReservedOpcodeDrawsIllegal: the least and the greatest reserved codes. -/
theorem witness_reserved_op : (0x00800000000000000000000000#104 : Req).extractLsb' 96 8 = 0#8 ∧
    ((0x08000000000000000000000000#104 : Req).extractLsb' 96 8).toNat = 8 ∧
    ((0xFFFFFFFFFFFFFFFFFFFFFFFFFF#104 : Req).extractLsb' 96 8).toNat = 255 := by decide

/-- ReservedBitsDrawIllegal: the ends of each reserved field, and the ends of each range of codes. -/
theorem witness_reserved_a : (0x01000000000000000100000000#104 : Req).extractLsb' 32 32 ≠ 0 ∧
    (0x06000000008000000000000000#104 : Req).extractLsb' 32 32 ≠ 0 := by decide
theorem witness_reserved_b : (0x01000000020000000000000000#104 : Req).extractLsb' 65 31 ≠ 0 ∧
    (0x07800000000000000000000000#104 : Req).extractLsb' 65 31 ≠ 0 := by decide
theorem witness_reserved_b0 : (0x01000000010000000000000000#104 : Req).extractLsb' 64 1 ≠ 0 ∧
    (0x04000000010000000000000000#104 : Req).extractLsb' 64 1 ≠ 0 := by decide

/-- RequestIsHandledInOrder: the greatest code with every reserved bit zero, out of contract and in contract; the codes
on the two sides of the legal range are witness_reserved_op. -/
theorem witness_handled :
    ((0x07000000014090000000000000#104 : Req).extractLsb' 96 8).toNat = 7 ∧
      (0x07000000014090000000000000#104 : Req).extractLsb' 65 31 = 0 ∧
      inContractExp ((0x07000000014090000000000000#104 : Req).extractLsb' 0 64) = false ∧
      inContractExp ((0x0700000001408FF80000000000#104 : Req).extractLsb' 0 64) = true ∧
      inContractLog ((0x0500000000000000007F7FFFFF#104 : Req).extractLsb' 0 32) = true ∧
      inContractExpcon rc0 ((0x060000000000000000FFFF8060#104 : Req).extractLsb' 0 32).toInt = true := by decide

/-- FaultIsOnlyAResponse, the classifier, SignBiasFlipsOnlyTheSign and every statement that asks for a request in front. -/
theorem witness_request_in_front : ∃ p rest, busy.requests = p :: rest ∧ p.port ≠ 0 := ⟨_, _, rfl, by decide⟩

/-- EveryInstructionFrame and UnusedLanesAreZero: each of the seven answers a next state. -/
theorem witness_zinfnan : ∃ t, exec (.zinfnan 0x3F800000#32) busy = .next t := exists_next (by decide +kernel)
theorem witness_chkint : ∃ t, exec (.chkint 0x3F800000#32) busy = .next t := exists_next (by decide +kernel)
theorem witness_fclass : ∃ t, exec (.fclass 0x3F800000#32) busy = .next t := exists_next (by decide +kernel)
theorem witness_rcplk : ∃ t, exec (.rcplk 0x3F800000#32) busy = .next t := exists_next (by decide +kernel)
theorem witness_log2 : ∃ t, exec (.log2 0x3F800000#32 0) busy = .next t := exists_next (by decide +kernel)
theorem witness_expcon : ∃ t, exec (.expcon 1 true) busy = .next t := exists_next (by decide +kernel)
theorem witness_exp2 : ∃ t, exec (.exp2 0x3F90000000000000#64 true) busy = .next t := exists_next (by decide +kernel)

/-- NoStepWritesAConstantStore, StepKeepsTheInvariant, EveryRequestIsAnsweredAsIfAlone, InvariantStatesAreSafe. -/
theorem witness_steps : ∃ t, runSteps 3 busy = .next t := exists_next (by decide +kernel)
theorem witness_steps_through_reset : ∃ t, runSteps 2 busy.assertReset = .next t := exists_next (by decide +kernel)
theorem witness_invariant_step : busy.inv = true ∧ ∃ t, step busy = .next t :=
  ⟨by decide +kernel, exists_next (by decide +kernel)⟩

/-- ResetDropsRequestsForGood. -/
theorem witness_reset_pending : busy.assertReset.inv = true ∧ busy.assertReset.resetPending = true := by decide +kernel

/-- FirstRequestAfterResetIsAnswered: the last port that exists. -/
theorem witness_last_port : busy.inv = true ∧ 1 < busy.cfg.nports := by decide +kernel

/-- IllFormedConfigIsRefused. -/
theorem witness_ill_formed : ({ busy with cfg := { cfg2 with bl := 17 } } : State).cfg.wf = false := by decide +kernel

/-- ChkintResult: finite nonzero patterns of each answer at the ends of the middle range, and both other clauses. -/
theorem witness_chkint_clauses :
    (isFinite32 0x3F7FFFFF#32 = true ∧ mag32 0x3F7FFFFF#32 ≠ 0) ∧ val32 0x3F800000#32 = (1 : ℤ) ∧
      val32 0x4B7FFFFF#32 = (16777215 : ℤ) ∧ val32 0xCB800000#32 = (-16777216 : ℤ) ∧ val32 0x3FC00000#32 = 3 / 2 ∧
      expField32 0x807FFFFF#32 = 0 ∧ expField32 0x7F800000#32 = 255 := by decide +kernel

/-- LogContract, RcplkResult and the other statements of the log2 path: the ends of the contract, at the least `OFF`,
RC0's and the greatest; and the patterns one outside them. -/
theorem witness_log_contract : cfgLow.wf = true ∧ rc0.wf = true ∧ cfgHigh.wf = true ∧
    inContractLog 0x00800000#32 = true ∧ inContractLog 0x7F7FFFFF#32 = true ∧ inContractLog 0x007FFFFF#32 = false ∧
      inContractLog 0x7F800000#32 = false := by decide +kernel

/-- Log2IsAlwaysFinite and Log2OfPowerOfTwoIsExact. -/
theorem witness_log2_power_of_two : inContractLog 0x7F000000#32 = true ∧ fracField32 0x7F000000#32 = 0 ∧
    fitsSint32 (-2147483648) = true ∧ fitsSint32 2147483647 = true ∧ (State.lone rc0 0).cfg = rc0 ∧
      (expField32 0x3F800000#32 : ℤ) - 127 + 0 = 0 := by decide +kernel

/-- Log2OffsetCountsDoublings: the greatest operand whose double is in contract. -/
theorem witness_doubling : inContractLog 0x7EFFFFFF#32 = true ∧
    inContractLog (0x7EFFFFFF#32 + 0x00800000#32) = true := by
  decide

/-- ExpconResult, OutOfContractDrawsOoc and StoredFormGivesTheSameScaleFactor: the ends of the contract and one outside. -/
theorem witness_expcon_contract : inContractExpcon rc0 (-32672) = true ∧ inContractExpcon rc0 32736 = true ∧
    inContractExpcon rc0 (-32673) = false ∧ inContractExpcon rc0 32737 = false ∧
      -1021 * (2 : ℤ) ^ rc0.be = -32672 ∧ 1023 * (2 : ℤ) ^ rc0.be = 32736 := by decide

/-- ExpContract and the other statements of the exp2 path, Exp2UnderRc0IsNormal (the configuration is `rc0`) among them:
the ends of the contract, both zeros, and one outside. -/
theorem witness_exp_contract : inContractExp 0x408FF80000000000#64 = true ∧ inContractExp 0xC08FE80000000000#64 = true ∧
    inContractExp 0x8000000000000000#64 = true ∧ inContractExp 0x408FF80000000001#64 = false ∧
      inContractExp 0xC08FE80000000001#64 = false ∧ inContractExp 0x7FF8000000000000#64 = false := by decide

/-- Exp2OfExactMultipleIsExpcon: the ends of the contract and -0. -/
theorem witness_exact_multiple : val64 0x408FF80000000000#64 = ((32736 : ℤ) : ℚ) / 2 ^ rc0.be ∧
    val64 0xC08FE80000000000#64 = ((-32672 : ℤ) : ℚ) / 2 ^ rc0.be ∧
      val64 0x8000000000000000#64 = ((0 : ℤ) : ℚ) / 2 ^ rc0.be := by decide +kernel

/-- Exp2OfIntegerIsThePowerOfTwo: entry 0 of RC0's table, and the ends of the contract. -/
theorem witness_integer : rc0.e2t[0]? = some one64 ∧ val64 0x408FF80000000000#64 = ((1023 : ℤ) : ℚ) ∧
    val64 0xC08FE80000000000#64 = ((-1021 : ℤ) : ℚ) ∧ inContractExp 0x408FF80000000000#64 = true ∧
      inContractExp 0xC08FE80000000000#64 = true := by decide +kernel

/-- SumIsRoundedToNearestEven and ProductIsRoundedToNearestEven: the greatest finite operands. -/
theorem witness_rounding : isFinite64 0x7FEFFFFFFFFFFFFF#64 = true ∧
    val64 0x7FEFFFFFFFFFFFFF#64 + val64 0x7FEFFFFFFFFFFFFF#64 ≠ 0 ∧
      val64 0x7FEFFFFFFFFFFFFF#64 - val64 0xFFEFFFFFFFFFFFFF#64 ≠ 0 ∧
        val64 0x0000000000000001#64 * val64 0x8000000000000001#64 ≠ 0 := by decide +kernel

/-- SignsOfZeroResults. -/
theorem witness_zero_results : isFinite64 0x8000000000000000#64 = true ∧
    val64 0x8000000000000000#64 * val64 0x3FF0000000000000#64 = 0 ∧
      val64 0x3FF0000000000000#64 + val64 0xBFF0000000000000#64 = 0 := by decide +kernel

/-- ConversionsAreExact. -/
theorem witness_conversions : isFinite32 0x80000001#32 = true ∧ isFinite32 0x7F7FFFFF#32 = true ∧
    1 ≤ expField32 0x00800000#32 ∧ (-9007199254740991 : ℤ).natAbs < 2 ^ 53 := by decide +kernel

/-- PowerIsTotal: the repository's `UPPER`, and the greatest allowed. -/
theorem witness_upper : key64 repositoryHost.upper ≤ key64 0x408FF80000000000#64 ∧
    key64 0x408FF80000000000#64 ≤ key64 0x408FF80000000000#64 := by decide

/-- PowerOfYZeroIsOne and PowerOfXOneIsOne. -/
theorem witness_y_zero : mag32 0x80000000#32 = 0 ∧ isSignalling32 0x7FC00000#32 = false ∧
    isSignalling32 0x7F800000#32 = false := by decide

/-- NegativeBaseNeedsAnInteger. -/
theorem witness_negative_base : isFinite32 0xC1000000#32 = true ∧ (0xC1000000#32).msb = true ∧
    mag32 0xC1000000#32 ≠ 0 ∧ isFinite32 0x3F000000#32 = true ∧ ∀ n : ℤ, val32 0x3F000000#32 ≠ n := by
  refine ⟨by decide, by decide, by decide, by decide, fun n h => ?_⟩
  rw [show val32 0x3F000000#32 = 1 / 2 by decide +kernel] at h
  have h2 : (2 * n : ℚ) = 1 := by linarith
  have : (2 * n : ℤ) = 1 := by exact_mod_cast h2
  omega

/-- NegatedBaseFlipsTheSignOfOddPowers, for an odd and an even power. -/
theorem witness_negated_base : isFinite32 0x41000000#32 = true ∧ mag32 0x41000000#32 ≠ 0 ∧
    (0x41000000#32).msb = false ∧ val32 0x40400000#32 = ((3 : ℤ) : ℚ) ∧ val32 0x40000000#32 = ((2 : ℤ) : ℚ) ∧
      powHost rc0 repositoryHost 0x41000000#32 0x40400000#32 = some ⟨0x44000000#32, none⟩ ∧
        powHost rc0 repositoryHost 0x41000000#32 0x40000000#32 = some ⟨0x42800000#32, none⟩ := by decide +kernel

end Sys2Proof.Tests
end

section
/-! SUPPORT. Runs of steps: what one step keeps, a run keeps; and no run writes a constant store (20_memory.md R42). -/

namespace Sys2Proof.Machine

variable {s t : State} {k : Nat}

theorem runSteps_succ (h : step s = .next t) : runSteps (k + 1) s = runSteps k t := by
  simp [runSteps, h]

/-- A run of `k + 1` steps that ends in a state is a step that does, then a run of `k` steps. -/
theorem runSteps_succ_next (h : runSteps (k + 1) s = .next t) : ∃ u, step s = .next u ∧ runSteps k u = .next t := by
  cases hs : step s with
  | next u => exact ⟨u, rfl, runSteps_succ hs ▸ h⟩
  | fault r => simp [runSteps, hs] at h
  | refused r => simp [runSteps, hs] at h

/-- The induction over the steps of a run: a predicate that every step keeps holds at the end of every run. -/
theorem runSteps_keeps {P : State → Prop} (hstep : ∀ u v, P u → step u = .next v → P v) (hs : P s)
    (h : runSteps k s = .next t) : P t := by
  induction k generalizing s with
  | zero => exact Host.Outcome.next.inj h ▸ hs
  | succ k ih =>
    obtain ⟨u, hu, ht⟩ := runSteps_succ_next h
    exact ih (hstep s u hs hu) ht

theorem step_cfg (h : step s = .next t) : t.cfg = s.cfg := by
  obtain ⟨-, rfl | rfl | ⟨p, rest, rsp, -, -, rfl, -⟩⟩ := step_cases h
  · exact State.takeReset_cfg s
  · rfl
  · exact State.answered_cfg s p rest rsp

theorem runSteps_cfg (h : runSteps k s = .next t) : t.cfg = s.cfg :=
  runSteps_keeps (P := fun u => u.cfg = s.cfg) (fun _ _ hu hv => (step_cfg hv).trans hu) rfl h

/-- Settles O14: every step keeps the configuration, so a run does, and the four stores are read from it alone. -/
theorem noStepWritesAConstantStore : Obligations.NoStepWritesAConstantStore := by
  refine ⟨fun s t k h => ?_, fun s port req => ⟨State.submit_cfg s port req, State.assertReset_cfg s⟩⟩
  have hcfg : t.cfg = s.cfg := runSteps_cfg h
  simp [hcfg]

end Sys2Proof.Machine
end

section
/-! SUPPORT. The response to a request is a function of the request and the configuration (70_reset_and_hazards.md
R250): neither its port, nor the other requests, nor the earlier responses play a part in it. -/

namespace Sys2Proof.Machine

/-- Under `cfg` the meaning `m` answers whatever request is in front with `rsp`, in every state. -/
def Answers (cfg : Config) (m : State → Result) (rsp : Response) : Prop :=
  ∀ (s : State) (p : Pending) (rest : List Pending), s.cfg = cfg → s.requests = p :: rest →
    m s = .next (s.answered p rest rsp)

variable {cfg : Config} {m : State → Result}

theorem answers_complete (rsp : Response) : Answers cfg (complete rsp) rsp :=
  fun _ _ _ _ h => complete_cons rsp h

theorem answers_raiseFault (code : FaultCode) : Answers cfg (raiseFault code) (faultResponse code) :=
  answers_complete (faultResponse code)

theorem answers_completeRead (value : Config → Option Word64) {y : Word64} (h : value cfg = some y) :
    Answers cfg (fun s => completeRead (value s.cfg) s) (okResponse y 0 0) := by
  rintro s p rest rfl hr
  simp only [h]
  exact completeRead_some y hr

/-- A meaning that checks its contract first answers, with its own response or with `OOC`. -/
theorem exists_answers_ofContract (ok : Config → Bool) (hm : ∃ rsp, Answers cfg m rsp) :
    ∃ rsp, Answers cfg (fun s => if ok s.cfg then m s else raiseFault .ooc s) rsp := by
  cases hok : ok cfg with
  | true =>
    obtain ⟨rsp, ha⟩ := hm
    refine ⟨rsp, fun s p rest hc hr => ?_⟩
    simpa [hc, hok] using ha s p rest hc hr
  | false =>
    refine ⟨faultResponse .ooc, fun s p rest hc hr => ?_⟩
    simpa [hc, hok] using answers_raiseFault .ooc s p rest hc hr

/-- Under a well-formed configuration every instruction has one response, the same in all states. -/
theorem exists_answers_exec (hw : cfg.wf = true) (i : Instr) : ∃ rsp, Answers cfg (exec i) rsp := by
  cases i with
  | zinfnan ix => exact ⟨_, answers_complete _⟩
  | chkint iy => exact ⟨_, answers_complete _⟩
  | fclass ix => exact ⟨_, answers_complete _⟩
  | rcplk ix =>
    obtain ⟨e, he, -⟩ := memReadL2T_of_lt hw (i := (decompose cfg ix).i) decompose_i_lt
    refine exists_answers_ofContract (fun _ => inContractLog ix)
      ⟨okResponse e.invc e.logc (packLookup (decompose cfg ix)), ?_⟩
    rintro s p rest rfl hr
    simp only [he]
    exact complete_cons _ hr
  | log2 ix eofs =>
    obtain ⟨e, -, hv⟩ := log2Value_eq hw ix eofs
    exact exists_answers_ofContract (fun _ => inContractLog ix) ⟨_, answers_completeRead (log2Value · ix eofs) hv⟩
  | expcon k sb =>
    obtain ⟨e, -, -, hv⟩ := expconValue_eq hw k sb
    exact exists_answers_ofContract (inContractExpcon · k) ⟨_, answers_completeRead (expconValue · k sb) hv⟩
  | exp2 xd sb =>
    obtain ⟨e, -, -, hv⟩ := exp2Value_eq hw xd sb
    exact exists_answers_ofContract (fun _ => inContractExp xd) ⟨_, answers_completeRead (exp2Value · xd sb) hv⟩

theorem exists_answers_perform (hw : cfg.wf = true) (req : Req) : ∃ rsp, Answers cfg (perform req) rsp := by
  cases hd : decode req with
  | ok i =>
    have hp : perform req = exec i := by funext s; simp [perform, hd]
    exact hp ▸ exists_answers_exec hw i
  | error e =>
    have hp : perform req = raiseFault .illegal := by funext s; simp [perform, hd]
    exact hp ▸ ⟨_, answers_raiseFault .illegal⟩

/-- What a request is answered with when it is alone is what performing it answers in every state. -/
theorem blockAnswer_of_answers (hw : cfg.wf = true) {req : Req} {rsp : Response} (h : Answers cfg (perform req) rsp) :
    blockAnswer cfg req = some rsp := by
  have hstep : step (State.lone cfg req) = .next ((State.lone cfg req).answered ⟨0, req⟩ [] rsp) :=
    (step_cons (s := State.lone cfg req) hw rfl rfl (Config.wf_nports hw)).trans (h (State.lone cfg req) _ _ rfl rfl)
  simp only [blockAnswer, hstep]
  rfl

/-- A step answers the request in front with the response that the block gives to it alone. -/
theorem step_answers_asIfAlone {s : State} {p : Pending} {rest : List Pending} (hw : s.cfg.wf = true)
    (hr : s.resetPending = false) (h : s.requests = p :: rest) (hp : p.port < s.cfg.nports) :
    ∃ rsp, blockAnswer s.cfg p.req = some rsp ∧ step s = .next (s.answered p rest rsp) := by
  obtain ⟨rsp, ha⟩ := exists_answers_perform hw p.req
  exact ⟨rsp, blockAnswer_of_answers hw ha, (step_cons hw hr h hp).trans (ha s p rest rfl h)⟩

end Sys2Proof.Machine
end

section
/-! SUPPORT. All requests in flight are answered, on every port in the order of its requests, each as if it were alone
(20_memory.md R49; 70_reset_and_hazards.md R248 (a), (b)). -/

namespace Sys2Proof.Machine

/-- `t` has answered every request of `s`, each with the response it gets alone, in the order of its port. -/
structure AllAnsweredAlone (s t : State) : Prop where
  requests_nil : t.requests = []
  cfg_eq : t.cfg = s.cfg
  responsesOn_eq : ∀ port, (t.responsesOn port).map some =
    (s.responsesOn port).map some ++ (s.requestsOn port).map (blockAnswer s.cfg)

theorem AllAnsweredAlone.refl {s : State} (h : s.requests = []) : AllAnsweredAlone s s :=
  ⟨h, rfl, fun port => by simp [State.requestsOn, h]⟩

/-- Answering the request in front as if alone, then the rest in the same way, answers all. -/
theorem AllAnsweredAlone.cons {s t : State} {p : Pending} {rest : List Pending} {rsp : Response}
    (h : s.requests = p :: rest) (ha : blockAnswer s.cfg p.req = some rsp)
    (ht : AllAnsweredAlone (s.answered p rest rsp) t) : AllAnsweredAlone s t := by
  refine ⟨ht.requests_nil, ht.cfg_eq, fun port => ?_⟩
  rw [ht.responsesOn_eq, State.responsesOn_answered, State.requestsOn_cons s p rest rsp port h]
  by_cases hp : p.port = port <;> simp [hp, ha]

theorem runSteps_allAnsweredAlone {l : List Pending} {s : State} (hl : s.requests = l) (hw : s.cfg.wf = true)
    (hr : s.resetPending = false) (hp : ∀ p ∈ l, p.port < s.cfg.nports) :
    ∃ t, runSteps l.length s = .next t ∧ AllAnsweredAlone s t := by
  induction l generalizing s with
  | nil => exact ⟨s, rfl, .refl hl⟩
  | cons p rest ih =>
    obtain ⟨hfront, hrest⟩ := List.forall_mem_cons.mp hp
    obtain ⟨rsp, ha, hstep⟩ := step_answers_asIfAlone hw hr hl hfront
    obtain ⟨t, hrun, ht⟩ := ih (s := s.answered p rest rsp) rfl hw hr hrest
    exact ⟨t, (runSteps_succ hstep).trans hrun, ht.cons hl ha⟩

/-- What the invariant says of the configuration and of the requests in flight. -/
theorem wf_and_ports_of_inv {s : State} (h : s.inv = true) :
    s.cfg.wf = true ∧ ∀ p ∈ s.requests, p.port < s.cfg.nports := by
  simp only [State.inv, State.requestsOk, Bool.and_eq_true, List.all_eq_true, decide_eq_true_eq] at h
  exact h.1

/-- Settles O18, by induction on the requests in flight: each step answers the one in front as if it were alone. -/
theorem everyRequestIsAnsweredAsIfAlone : Obligations.EveryRequestIsAnsweredAsIfAlone := by
  intro s hinv hr
  obtain ⟨hw, hports⟩ := wf_and_ports_of_inv hinv
  obtain ⟨t, hrun, ht⟩ := runSteps_allAnsweredAlone rfl hw hr hports
  exact ⟨t, hrun, ht.requests_nil, ht.cfg_eq, ht.responsesOn_eq⟩

end Sys2Proof.Machine
end

section
/-! SUPPORT. Requests and responses as vectors (30_encoding.md R60, R61, R62): the reserved fields and the lanes of a
request, and the lanes of a response. -/

namespace Sys2Proof

namespace Req

variable {r : Req} {op : BitVec 8} {b : Word32} {a : Word64}

/-- A vector with the given three fields is the request packed from them. -/
theorem pack_eq_of_fields (hop : r.op = op) (hb : r.b = b) (ha : r.a = a) : Req.pack op b a = r := by
  subst hop hb ha
  exact pack_fields r

theorem laneA32_aLo (h : r.aHi = 0) : laneA32 r.aLo = r.a := by
  rw [aHi_eq] at h
  rw [aLo_eq]
  exact laneA32_of_hi_zero r.a h

theorem laneSb_sb (h : r.bHi = 0) : laneSb r.sb = r.b := by
  rw [bHi_eq] at h
  rw [sb_eq]
  exact laneSb_of_hi_zero r.b h

theorem bit64_eq_zero_iff : r.extractLsb' 64 1 = 0 ↔ r.sb = false := by
  simp [Req.sb, BitVec.eq_of_getLsbD_eq_iff]

theorem b_eq_zero_iff : r.b = 0 ↔ r.bHi = 0 ∧ r.extractLsb' 64 1 = 0 := by
  rw [bit64_eq_zero_iff]
  constructor
  · intro h
    simp [bHi_eq, sb_eq, h]
  · rintro ⟨hhi, hsb⟩
    rw [← laneSb_sb hhi, hsb]
    decide

/-- The seven operation codes that are not reserved (30_encoding.md R64). -/
theorem op_cases (h1 : 1 ≤ r.op.toNat) (h7 : r.op.toNat ≤ 7) :
    r.op = 1#8 ∨ r.op = 2#8 ∨ r.op = 3#8 ∨ r.op = 4#8 ∨ r.op = 5#8 ∨ r.op = 6#8 ∨ r.op = 7#8 := by
  bv_omega

end Req

/-- Settles O1: the fields of a packed request, and the request packed from its fields. -/
theorem requestLayout : Obligations.RequestLayout :=
  ⟨fun op b a => ⟨Req.pack_op op b a, Req.pack_b op b a, Req.pack_a op b a⟩, fun r => (Req.pack_fields r).symm⟩

end Sys2Proof

namespace Sys2Proof.Machine.Response

variable (r : Response)

@[simp] theorem toBits_r0 : r.toBits.extractLsb' 0 64 = r.r0 := by
  ext i hi; simp [toBits]; grind

@[simp] theorem toBits_r1 : r.toBits.extractLsb' 64 64 = r.r1 := by
  ext i hi; simp [toBits]; grind

@[simp] theorem toBits_r2 : r.toBits.extractLsb' 128 64 = r.r2 := by
  ext i hi; simp [toBits]; grind

@[simp] theorem toBits_status : r.toBits.extractLsb' 192 2 = statusCode r.status := by
  ext i hi; simp [toBits]; grind

end Sys2Proof.Machine.Response

namespace Sys2Proof.Machine

theorem statusCode_ne_three (st : Status) : statusCode st ≠ 3#2 := by cases st <;> decide

/-- Settles O2: the four fields of the response vector, and no status has code 3. -/
theorem responseLayout : Obligations.ResponseLayout := by
  intro r
  have hcode : ∀ st, r.status = st → r.toBits.extractLsb' 192 2 = statusCode st := by
    rintro st rfl
    exact r.toBits_status
  exact ⟨r.toBits_r0, r.toBits_r1, r.toBits_r2, hcode .ok, hcode .illegal, hcode .ooc,
    hcode _ rfl ▸ statusCode_ne_three r.status⟩

end Sys2Proof.Machine
end

section
/-! SUPPORT. What the decoder reads (30_encoding.md R64 to R67), said once: `Decodes`, a row per operation code, and
what follows from a row. -/

namespace Sys2Proof

/-- The instruction that a request carries, code by code: the bits its format reserves are zero, and the operands are
its lanes (30_encoding.md R61, R64, R66). -/
inductive Decodes (r : Req) : Instr → Prop
  | zinfnan (hop : r.op = 0x01#8) (ha : r.aHi = 0) (hb : r.b = 0) : Decodes r (.zinfnan r.aLo)
  | chkint (hop : r.op = 0x02#8) (ha : r.aHi = 0) (hb : r.b = 0) : Decodes r (.chkint r.aLo)
  | fclass (hop : r.op = 0x03#8) (ha : r.aHi = 0) (hb : r.b = 0) : Decodes r (.fclass r.aLo)
  | rcplk (hop : r.op = 0x04#8) (ha : r.aHi = 0) (hb : r.b = 0) : Decodes r (.rcplk r.aLo)
  | log2 (hop : r.op = 0x05#8) (ha : r.aHi = 0) : Decodes r (.log2 r.aLo r.b.toInt)
  | expcon (hop : r.op = 0x06#8) (ha : r.aHi = 0) (hb : r.bHi = 0) : Decodes r (.expcon r.aLo.toInt r.sb)
  | exp2 (hop : r.op = 0x07#8) (hb : r.bHi = 0) : Decodes r (.exp2 r.a r.sb)

/-- A bit that the format of the request's code reserves is not zero (30_encoding.md R66). -/
def Req.reservedBitSet (r : Req) : Prop :=
  (r.op.toNat ≤ 6 ∧ r.aHi ≠ 0) ∨ (r.op.toNat ≠ 5 ∧ r.bHi ≠ 0) ∨ (r.op.toNat ≤ 4 ∧ r.extractLsb' 64 1 ≠ 0)

/-- The operand that the request's code reads is out of its contract (60_exceptions.md R212). -/
def Req.outOfContract (cfg : Config) (r : Req) : Prop :=
  ((r.op.toNat = 4 ∨ r.op.toNat = 5) ∧ Machine.inContractLog r.aLo = false) ∨
    (r.op.toNat = 6 ∧ Machine.inContractExpcon cfg r.aLo.toInt = false) ∨
    (r.op.toNat = 7 ∧ Machine.inContractExp r.a = false)

/-- The operand of an instruction is in its contract; the classifier has none (60_exceptions.md R212). -/
def Instr.inContract (cfg : Config) : Instr → Bool
  | .zinfnan _ | .chkint _ | .fclass _ => true
  | .rcplk ix | .log2 ix _ => Machine.inContractLog ix
  | .expcon k _ => Machine.inContractExpcon cfg k
  | .exp2 xd _ => Machine.inContractExp xd

variable {r : Req} {i : Instr}

/-- A check of the reserved bits that passes gives its instruction. -/
theorem guard_of_ite_eq_ok {c : Prop} [Decidable c] {j : Instr} {e : DecodeError}
    (h : (if c then .ok j else .error e : Except DecodeError Instr) = .ok i) : c ∧ j = i := by
  split at h
  next hc => exact ⟨hc, Except.ok.inj h⟩
  next => cases h

theorem Decodes.of_decode (h : decode r = .ok i) : Decodes r i := by
  unfold decode at h
  split_ifs at h with hop hop hop hop hop hop hop
  · obtain ⟨⟨ha, hb⟩, rfl⟩ := guard_of_ite_eq_ok h
    exact .zinfnan hop ha hb
  · obtain ⟨⟨ha, hb⟩, rfl⟩ := guard_of_ite_eq_ok h
    exact .chkint hop ha hb
  · obtain ⟨⟨ha, hb⟩, rfl⟩ := guard_of_ite_eq_ok h
    exact .fclass hop ha hb
  · obtain ⟨⟨ha, hb⟩, rfl⟩ := guard_of_ite_eq_ok h
    exact .rcplk hop ha hb
  · obtain ⟨ha, rfl⟩ := guard_of_ite_eq_ok h
    exact .log2 hop ha
  · obtain ⟨⟨ha, hb⟩, rfl⟩ := guard_of_ite_eq_ok h
    exact .expcon hop ha hb
  · obtain ⟨hb, rfl⟩ := guard_of_ite_eq_ok h
    exact .exp2 hop hb

/-- Format F32 reserves `a[63:32]` and all of `b`; with those zero, no format's reserved bit is set. -/
theorem Req.not_reservedBitSet_of_zero (ha : r.aHi = 0) (hb : r.b = 0) : ¬ r.reservedBitSet := by
  obtain ⟨hbHi, hb0⟩ := Req.b_eq_zero_iff.mp hb
  simp [Req.reservedBitSet, ha, hbHi, hb0]

namespace Decodes

theorem decode_eq (h : Decodes r i) : decode r = .ok i := by
  cases h with
  | zinfnan hop ha hb | chkint hop ha hb | fclass hop ha hb | rcplk hop ha hb =>
    simp [decode, formatF32, hop, ha, hb]
  | log2 hop ha => simp [decode, formatF32E, hop, ha]
  | expcon hop ha hb => simp [decode, formatK32S, hop, ha, hb]
  | exp2 hop hb => simp [decode, formatF64S, hop, hb]

theorem op_range (h : Decodes r i) : 1 ≤ r.op.toNat ∧ r.op.toNat ≤ 7 := by
  cases h <;> simp [*]

theorem wf (h : Decodes r i) : i.wf = true := by
  cases h with
  | log2 => exact fits_toInt r.b
  | expcon => exact fits_toInt r.aLo
  | _ => rfl

/-- No two requests carry one instruction: the fields that an instruction does not hold are fixed (R61, R66). -/
theorem encode_eq (h : Decodes r i) : encode i = r := by
  cases h with
  | zinfnan hop ha hb | chkint hop ha hb | fclass hop ha hb | rcplk hop ha hb =>
    exact Req.pack_eq_of_fields hop hb (Req.laneA32_aLo ha).symm
  | log2 hop ha => exact Req.pack_eq_of_fields hop BitVec.ofInt_toInt.symm (Req.laneA32_aLo ha).symm
  | expcon hop ha hb =>
    refine Req.pack_eq_of_fields hop (Req.laneSb_sb hb).symm ?_
    rw [BitVec.ofInt_toInt, Req.laneA32_aLo ha]
  | exp2 hop hb => exact Req.pack_eq_of_fields hop (Req.laneSb_sb hb).symm rfl

theorem not_reservedBitSet (h : Decodes r i) : ¬ r.reservedBitSet := by
  cases h with
  | zinfnan _ ha hb | chkint _ ha hb | fclass _ ha hb | rcplk _ ha hb => exact Req.not_reservedBitSet_of_zero ha hb
  | log2 hop ha => simp [Req.reservedBitSet, hop, ha]
  | expcon hop ha hb => simp [Req.reservedBitSet, hop, ha, hb]
  | exp2 hop hb => simp [Req.reservedBitSet, hop, hb]

theorem inContract_eq_false_iff (h : Decodes r i) (cfg : Config) :
    i.inContract cfg = false ↔ r.outOfContract cfg := by
  cases h <;> simp [Req.outOfContract, Instr.inContract, *]

end Decodes

/-- Decoding is total: a request whose code is not reserved and whose reserved bits are zero decodes. -/
theorem exists_decodes (h1 : 1 ≤ r.op.toNat) (h7 : r.op.toNat ≤ 7) (h : ¬ r.reservedBitSet) : ∃ i, Decodes r i := by
  simp only [Req.reservedBitSet, not_or, not_and, not_not] at h
  obtain ⟨ha, hbHi, hb0⟩ := h
  have hb (h4 : r.op.toNat ≤ 4) : r.b = 0 := Req.b_eq_zero_iff.mpr ⟨hbHi (by omega), hb0 h4⟩
  rcases Req.op_cases h1 h7 with hop | hop | hop | hop | hop | hop | hop <;> simp only [hop] at ha hbHi hb
  · exact ⟨_, .zinfnan hop (ha (by decide)) (hb (by decide))⟩
  · exact ⟨_, .chkint hop (ha (by decide)) (hb (by decide))⟩
  · exact ⟨_, .fclass hop (ha (by decide)) (hb (by decide))⟩
  · exact ⟨_, .rcplk hop (ha (by decide)) (hb (by decide))⟩
  · exact ⟨_, .log2 hop (ha (by decide))⟩
  · exact ⟨_, .expcon hop (ha (by decide)) (hbHi (by decide))⟩
  · exact ⟨_, .exp2 hop (hbHi (by decide))⟩

end Sys2Proof
end

section
/-! SUPPORT. The answer to the request in front in the order of 30_encoding.md R65: reserved code, reserved bits,
contract, operation. -/

namespace Sys2Proof.Machine

variable {s : State} {p : Pending} {rest : List Pending} {i : Instr}

theorem exec_of_outOfContract (h : s.requests = p :: rest) (hc : i.inContract s.cfg = false) :
    exec i s = .next (s.answered p rest ⟨.ooc, 0, 0, 0⟩) := by
  have hooc : raiseFault .ooc s = .next (s.answered p rest ⟨.ooc, 0, 0, 0⟩) := raiseFault_cons .ooc h
  cases i with
  | zinfnan | chkint | fclass => simp [Instr.inContract] at hc
  | rcplk | log2 | expcon | exp2 => exact (if_neg (Bool.eq_false_iff.mp hc)).trans hooc

/-- A read whose table has the entry answers `OK`. -/
theorem completeRead_answers_ok {r0 : Option Word64} {y : Word64} (h : s.requests = p :: rest) (hy : r0 = some y) :
    ∃ rsp, completeRead r0 s = .next (s.answered p rest rsp) ∧ rsp.status = .ok := by
  subst hy
  exact ⟨_, completeRead_some y h, rfl⟩

theorem exec_of_inContract (hw : s.cfg.wf = true) (h : s.requests = p :: rest) (hc : i.inContract s.cfg = true) :
    ∃ rsp, exec i s = .next (s.answered p rest rsp) ∧ rsp.status = .ok := by
  cases i with
  | zinfnan ix => exact ⟨_, complete_cons _ h, rfl⟩
  | chkint iy => exact ⟨_, complete_cons _ h, rfl⟩
  | fclass ix => exact ⟨_, complete_cons _ h, rfl⟩
  | rcplk ix =>
    obtain ⟨e, he, -⟩ := memReadL2T_of_lt hw (i := (decompose s.cfg ix).i) decompose_i_lt
    have hexec : exec (.rcplk ix) s =
        complete (okResponse e.invc e.logc (packLookup (decompose s.cfg ix))) s := by
      simp only [Instr.inContract] at hc
      simp [exec, execRcplk, hc, he]
    exact ⟨_, hexec.trans (complete_cons _ h), rfl⟩
  | log2 ix eofs =>
    have hexec : exec (.log2 ix eofs) s = completeRead (log2Value s.cfg ix eofs) s := if_pos hc
    obtain ⟨e, -, hv⟩ := log2Value_eq hw ix eofs
    exact hexec ▸ completeRead_answers_ok h hv
  | expcon k sb =>
    have hexec : exec (.expcon k sb) s = completeRead (expconValue s.cfg k sb) s := if_pos hc
    obtain ⟨e, -, -, hv⟩ := expconValue_eq hw k sb
    exact hexec ▸ completeRead_answers_ok h hv
  | exp2 xd sb =>
    have hexec : exec (.exp2 xd sb) s = completeRead (exp2Value s.cfg xd sb) s := if_pos hc
    obtain ⟨e, -, -, hv⟩ := exp2Value_eq hw xd sb
    exact hexec ▸ completeRead_answers_ok h hv

section RequestInFront

variable (hw : s.cfg.wf = true) (hr : s.resetPending = false) (h : s.requests = p :: rest) (hp : p.port < s.cfg.nports)

include hw hr h hp

theorem step_of_decodes (hd : Decodes p.req i) : step s = exec i s := by
  rw [step_cons hw hr h hp, perform, hd.decode_eq]

theorem step_of_not_decodes (hd : ¬ ∃ i, Decodes p.req i) : step s = .next (s.answered p rest ⟨.illegal, 0, 0, 0⟩) := by
  rw [step_cons hw hr h hp]
  rcases perform_cases p.req s with ⟨i, hi, -⟩ | ⟨e, -, he⟩
  · exact absurd ⟨i, .of_decode hi⟩ hd
  · exact he.trans (raiseFault_cons .illegal h)

theorem step_of_reservedOp (hop : p.req.op.toNat = 0 ∨ 8 ≤ p.req.op.toNat) :
    step s = .next (s.answered p rest ⟨.illegal, 0, 0, 0⟩) := by
  refine step_of_not_decodes hw hr h hp ?_
  rintro ⟨i, hd⟩
  have := hd.op_range
  omega

theorem step_of_reservedBitSet (hbit : p.req.reservedBitSet) : step s = .next (s.answered p rest ⟨.illegal, 0, 0, 0⟩) :=
  step_of_not_decodes hw hr h hp fun ⟨_, hd⟩ => hd.not_reservedBitSet hbit

end RequestInFront

/-- Settles O8: no reserved code decodes, and what decodes is the encoding of its instruction. -/
theorem reservedOpcodeDrawsIllegal : Obligations.ReservedOpcodeDrawsIllegal := by
  intro s p rest hw hr h hp
  refine ⟨fun hop => step_of_reservedOp hw hr h hp (hop.imp_left (congrArg BitVec.toNat)), ?_⟩
  by_cases hd : ∃ i, Decodes p.req i
  · obtain ⟨i, hd⟩ := hd
    exact .inr ⟨i, hd.wf, hd.encode_eq.symm, step_of_decodes hw hr h hp hd⟩
  · exact .inl (step_of_not_decodes hw hr h hp hd)

/-- Settles O9: each of the three ranges is one of reserved bits of the request's format. -/
theorem reservedBitsDrawIllegal : Obligations.ReservedBitsDrawIllegal := by
  intro s p rest hw hr h hp op hbits
  refine step_of_reservedBitSet hw hr h hp ?_
  rcases hbits with ⟨-, h6, ha⟩ | ⟨-, -, h5, hb⟩ | ⟨-, h4, hb0⟩
  · exact .inl ⟨h6, ha⟩
  · exact .inr (.inl ⟨h5, hb⟩)
  · exact .inr (.inr ⟨h4, hb0⟩)

/-- Settles O10: a request with a legal code and zero reserved bits decodes, and its instruction answers `OOC` or `OK`
by its contract. -/
theorem requestIsHandledInOrder : Obligations.RequestIsHandledInOrder := by
  intro s p rest hw hr h hp op reservedBit outOfContract
  refine ⟨step_of_reservedOp hw hr h hp, fun _ _ => step_of_reservedBitSet hw hr h hp, ?_, ?_⟩
  · intro h1 h7 hbit hc
    obtain ⟨i, hd⟩ := exists_decodes h1 h7 hbit
    rw [step_of_decodes hw hr h hp hd]
    exact exec_of_outOfContract h ((hd.inContract_eq_false_iff s.cfg).mpr hc)
  · intro h1 h7 hbit hc
    obtain ⟨i, hd⟩ := exists_decodes h1 h7 hbit
    have hstep : step s = exec i s := step_of_decodes hw hr h hp hd
    have hin : i.inContract s.cfg = true := by
      rw [← Bool.not_eq_false, hd.inContract_eq_false_iff]
      exact hc
    obtain ⟨rsp, he, hok⟩ := exec_of_inContract hw h hin
    exact ⟨i, rsp, hd.decode_eq, hstep, hstep.trans he, hok⟩

end Sys2Proof.Machine
end

section
/-! SUPPORT. The contract of RCPLK and LOG2 (41_log2.md R133): the interval of patterns as fields, and `OOC` outside. -/

namespace Sys2Proof.Machine

/-- The patterns in contract are the positive normal ones (41_log2.md R133). -/
theorem inContractLog_iff_fields (ix : Word32) :
    inContractLog ix = true ↔ ix.msb = false ∧ 1 ≤ expField32 ix ∧ expField32 ix ≤ 254 := by
  have hlt : ix.toNat < 2 ^ 32 := ix.isLt
  have hsign : ix.msb = false ↔ ix.toNat < 2 ^ 31 := by rw [← Bool.not_eq_true, msb32_iff, not_le]
  rw [inContractLog_iff, hsign, expField32_eq]
  omega

/-- Settles O29: outside the contract both operations meet the general rule for an operand out of contract. -/
theorem logContract : Obligations.LogContract := by
  intro ix
  refine ⟨inContractLog_iff ix, inContractLog_iff_fields ix, fun hout s p rest eofs h => ?_⟩
  have hc : inContractLog ix = false := by rwa [← Bool.not_eq_true, inContractLog_iff]
  exact ⟨exec_of_outOfContract (i := .rcplk ix) h hc, exec_of_outOfContract (i := .log2 ix eofs) h hc⟩

end Sys2Proof.Machine
end

section
/-! SUPPORT. The conversions to binary64 are exact (41_log2.md R121), on values and on fields. -/

namespace Sys2Proof.Machine

/-- The value of the magnitude pattern with exponent field `E`, not zero, and mantissa field `F` (00_scope.md R13). -/
theorem magVal_normal {E F : Nat} (hE : 1 ≤ E) (hF : F < 2 ^ 52) :
    magVal (E * 2 ^ 52 + F) = (2 ^ 52 + F : ℚ) * 2 ^ ((E : ℤ) - 1075) := by
  have hdiv : (E * 2 ^ 52 + F) / 2 ^ 52 = E := by omega
  have hmod : (E * 2 ^ 52 + F) % 2 ^ 52 = F := by omega
  rw [magVal, hdiv, hmod, if_neg (by omega)]
  push_cast
  rfl

/-- A magnitude determines its two fields. -/
theorem fields64_of_mag {b : Word64} {E F : Nat} (h : (mag64 b).toNat = E * 2 ^ 52 + F) (hF : F < 2 ^ 52) :
    expField64 b = E ∧ fracField64 b = F := by
  have hfields := mag64_fields b
  have hfrac := fracField64_lt b
  omega

variable {x : Word32}

theorem val64_f32ToF64 (h : isFinite32 x = true) :
    isFinite64 (f32ToF64 x) = true ∧ val64 (f32ToF64 x) = val32 x := by
  have hsig : (unpack32 x).sig < 2 ^ 53 := (unpack32_sig_lt x).trans (by norm_num)
  have hexp : -1074 ≤ (unpack32 x).exp := by linarith [(unpack32_exp x h).1]
  have hbound : ((unpack32 x).sig : ℚ) * 2 ^ (unpack32 x).exp < 2 ^ (1024 : ℤ) :=
    (sig32_lt x h).trans_le (zpow_le_zpow_right₀ (by norm_num) (by norm_num))
  rw [f32ToF64_finite h, val32, Unpacked.val, unpack32_neg, mul_assoc]
  exact val64_round64_exact x.msb hsig hexp hbound

/-- A normal binary32 significand with its exponent field rebiased by 896 and its fraction shifted up 29 bits. -/
theorem mag64_f32ToF64_normal (h : isFinite32 x = true) (hn : 1 ≤ expField32 x) :
    (mag64 (f32ToF64 x)).toNat = (expField32 x + 896) * 2 ^ 52 + fracField32 x * 2 ^ 29 := by
  have hexp := expField32_lt x
  have hfrac := fracField32_lt x
  have hunpack : unpack32 x = ⟨x.msb, 2 ^ 23 + fracField32 x, expField32 x - 150⟩ := if_neg (by omega)
  have hval : ((2 ^ 23 + fracField32 x : Nat) : ℚ) * 2 ^ ((expField32 x : ℤ) - 150) =
      magVal ((expField32 x + 896) * 2 ^ 52 + fracField32 x * 2 ^ 29) := by
    have hscale : ((expField32 x : ℤ) - 150) = 29 + (((expField32 x + 896 : Nat) : ℤ) - 1075) := by omega
    rw [magVal_normal (by omega) (by omega), hscale, zpow_add₀ (by norm_num)]
    push_cast
    ring
  rw [f32ToF64_finite h, toNat_mag_round64, hunpack]
  refine roundMag_of_eq hval ?_
  rw [show infMag 52 11 = 2047 * 2 ^ 52 by decide]
  omega

theorem val64_intToF64 {n : Int} (hn : n.natAbs < 2 ^ 53) :
    isFinite64 (intToF64 n) = true ∧ val64 (intToF64 n) = n := by
  simpa [intToF64] using scaledIntToF64_val hn (e := 0) (by norm_num) (by norm_num)

/-- Settles O52: both conversions round an exact value of at most 53 significant bits, which rounding keeps. -/
theorem conversionsAreExact : Obligations.ConversionsAreExact := by
  refine ⟨fun x h => ?_, fun n hn => val64_intToF64 hn, scaledIntToF64_zero 0, rfl, val64_one64⟩
  obtain ⟨hfin, hval⟩ := val64_f32ToF64 h
  have hsign : (f32ToF64 x).msb = x.msb := by rw [f32ToF64_finite h, msb_round64]
  have hfrac := fracField32_lt x
  exact ⟨hfin, hval, hsign, fun hn => fields64_of_mag (mag64_f32ToF64_normal h hn) (by omega)⟩

end Sys2Proof.Machine
end

section
/-! SUPPORT. The contract of EXP2 (42_exp2.md R161) on values, and the `k` of its split (R155) in EXPCON's contract. -/

namespace Sys2Proof.Machine

theorem magVal_1023 : magVal 0x408FF80000000000 = 1023 := by norm_num [magVal]

theorem magVal_1021 : magVal 0x408FE80000000000 = 1021 := by norm_num [magVal]

/-- On the patterns of one sign the values are ordered as the magnitudes are, so the contract is an interval of values
(42_exp2.md R161). -/
theorem inContractExp_iff_val64 (xd : Word64) :
    inContractExp xd = true ↔ isFinite64 xd = true ∧ -1021 ≤ val64 xd ∧ val64 xd ≤ 1023 := by
  have hinf : infMag 52 11 = 0x7FF0000000000000 := by decide
  have hnonneg : 0 ≤ magVal (mag64 xd).toNat := magVal_nonneg _
  have hupper : (mag64 xd).toNat ≤ 0x408FF80000000000 ↔ magVal (mag64 xd).toNat ≤ 1023 := by
    rw [← magVal_1023, magVal_strictMono.le_iff_le]
  have hlower : (mag64 xd).toNat ≤ 0x408FE80000000000 ↔ magVal (mag64 xd).toNat ≤ 1021 := by
    rw [← magVal_1021, magVal_strictMono.le_iff_le]
  rw [inContractExp_iff, isFinite64_iff_mag, hinf, val64_eq]
  cases xd.msb with
  | false =>
    simp only [Bool.false_eq_true, if_false, one_mul, true_and, false_and, or_false]
    exact ⟨fun h => ⟨by omega, by linarith, hupper.mp h⟩, fun ⟨_, _, h⟩ => hupper.mpr h⟩
  | true =>
    simp only [Bool.true_eq_false, if_true, neg_one_mul, true_and, false_and, false_or]
    exact ⟨fun h => ⟨by omega, neg_le_neg (hlower.mp h), by linarith⟩,
      fun ⟨_, h, _⟩ => hlower.mpr (neg_le_neg_iff.mp h)⟩

/-- `nearestScaled be u` is the integer nearest to `2^be` times the value, ties to even (42_exp2.md R155). -/
theorem nearestScaled_nearest (be : Nat) (u : Unpacked) :
    IsNearestEven ((2 : ℚ) ^ be * Unpacked.val u) (nearestScaled be u) := by
  have hmag : IsNearestEven ((2 : ℚ) ^ be * (u.sig * 2 ^ u.exp)) (scaledRne u.sig (u.exp + be) 0) := by
    have h := scaledRne_nearest u.sig (u.exp + be) 0
    rwa [sub_zero, zpow_add₀ two_ne_zero, zpow_natCast, ← mul_assoc, mul_comm] at h
  cases hneg : u.neg with
  | false => simpa [nearestScaled, Unpacked.val, hneg] using hmag
  | true => simpa [nearestScaled, Unpacked.val, hneg] using hmag.neg

/-- The `k` of the split is the integer nearest to `NE * xd`, ties to even (42_exp2.md R155). -/
theorem split_k_nearest (cfg : Config) (xd : Word64) :
    IsNearestEven ((2 : ℚ) ^ cfg.be * val64 xd) (split cfg xd).k :=
  nearestScaled_nearest cfg.be (unpack64 xd)

/-- The ends of EXPCON's contract are integers, so rounding `NE * xd` does not cross them (42_exp2.md R154, R161). -/
theorem split_k_range (cfg : Config) {xd : Word64} (h : inContractExp xd = true) :
    -1021 * (2 : Int) ^ cfg.be ≤ (split cfg xd).k ∧ (split cfg xd).k ≤ 1023 * (2 : Int) ^ cfg.be := by
  obtain ⟨-, hlo, hhi⟩ := (inContractExp_iff_val64 xd).mp h
  have hpos : (0 : ℚ) < 2 ^ cfg.be := by positivity
  have hk := split_k_nearest cfg xd
  exact ⟨hk.ge_of_ge (by push_cast; nlinarith), hk.le_of_le (by push_cast; nlinarith)⟩

/-- Settles O41: the contract is an interval of values, which the split's rounding keeps; outside it EXP2 meets the
general rule for an operand out of contract. -/
theorem expContract : Obligations.ExpContract := by
  intro xd
  refine ⟨inContractExp_iff_val64 xd, inContractExp_iff xd, by decide, by decide,
    fun cfg _ h => split_k_range cfg h, ?_⟩
  exact fun hout s p rest sb h => exec_of_outOfContract (i := .exp2 xd sb) h hout

end Sys2Proof.Machine
end

section
/-! SUPPORT. Answering the request in front, port by port (70_reset_and_hazards.md R248): its own port gains the
response, and every other port keeps its responses and its requests. -/

namespace Sys2Proof.Machine.State

variable {s : State} {p : Pending} {rest : List Pending} {port : Nat}

theorem responsesOn_answered_front (rsp : Response) :
    (s.answered p rest rsp).responsesOn p.port = s.responsesOn p.port ++ [rsp] := by
  rw [responsesOn_answered, if_pos rfl]

theorem responsesOn_answered_of_ne (rsp : Response) (hport : port ≠ p.port) :
    (s.answered p rest rsp).responsesOn port = s.responsesOn port := by
  rw [responsesOn_answered, if_neg hport.symm, List.append_nil]

theorem requestsOn_answered_of_ne (rsp : Response) (h : s.requests = p :: rest) (hport : port ≠ p.port) :
    (s.answered p rest rsp).requestsOn port = s.requestsOn port := by
  rw [requestsOn_cons s p rest rsp port h, if_neg hport.symm, List.nil_append]

end Sys2Proof.Machine.State

namespace Sys2Proof.Machine

/-- Settles O11: a fault answers the request in front (60_exceptions.md R210), so its effect is that of an answer. -/
theorem faultIsOnlyAResponse : Obligations.FaultIsOnlyAResponse := by
  intro s p rest code h
  have hfault : raiseFault code s = .next (s.answered p rest ⟨faultStatus code, 0, 0, 0⟩) := raiseFault_cons code h
  refine ⟨_, hfault, State.answered_cfg .., State.answered_resetPending .., State.answered_requests ..,
    State.answered_responses .., State.responsesOn_answered_front _, fun port hport => ?_⟩
  exact ⟨State.responsesOn_answered_of_ne _ hport, State.requestsOn_answered_of_ne _ h hport⟩

end Sys2Proof.Machine
end

section
/-! SUPPORT. Both round trips between instructions and requests (30_encoding.md, sections 1 to 3), and the opcode table
(R64) as conditions on the fields of a request. -/

namespace Sys2Proof

namespace Req

variable (op : BitVec 8) (b : Word32) (a : Word64) (v : Word32) (sb : Bool)

@[simp] theorem pack_laneA32_aHi : Req.aHi (Req.pack op b (laneA32 v)) = 0 := by simp [aHi_eq]

@[simp] theorem pack_laneA32_aLo : Req.aLo (Req.pack op b (laneA32 v)) = v := by simp [aLo_eq]

@[simp] theorem pack_laneSb_bHi : Req.bHi (Req.pack op (laneSb sb) a) = 0 := by simp [bHi_eq]

@[simp] theorem pack_laneSb_sb : Req.sb (Req.pack op (laneSb sb) a) = sb := by simp [sb_eq]

variable {op op' : BitVec 8} {b b' : Word32} {a a' : Word64}

theorem pack_inj (h : Req.pack op b a = Req.pack op' b' a') : op = op' ∧ b = b' ∧ a = a' := by
  refine ⟨?_, ?_, ?_⟩
  · simpa using congrArg Req.op h
  · simpa using congrArg Req.b h
  · simpa using congrArg Req.a h

/-- A request matches under a mask exactly field by field. -/
theorem and_pack_eq_pack {r : Req} {mop : BitVec 8} {mb : Word32} {ma : Word64}
    (h : r &&& Req.pack mop mb ma = Req.pack op b a) : r.op &&& mop = op ∧ r.b &&& mb = b ∧ r.a &&& ma = a := by
  rw [← pack_fields r, Laws.TableRow.pack_and_pack] at h
  simpa using pack_inj h

end Req

/-- Bits that a mask of ones selects are zero where the masked vector is. -/
theorem extractLsb'_eq_zero_of_and {w start len : Nat} {v mask : BitVec w} (h : v &&& mask = 0)
    (hones : mask.extractLsb' start len = BitVec.allOnes len) : v.extractLsb' start len = 0 := by
  have hx : (v &&& mask).extractLsb' start len = v.extractLsb' start len := by
    rw [BitVec.extractLsb'_and, hones, BitVec.and_allOnes]
  rw [← hx, h]
  simp

variable {r : Req} {i : Instr}

/-- Settles O3: each format gives back the operands its fields were packed from; the signed ones because they fit. -/
theorem decodeOfEncodeIsTheInstruction : Obligations.DecodeOfEncodeIsTheInstruction := by
  intro i h
  cases i with
  | zinfnan ix | chkint ix | fclass ix | rcplk ix => simp [encode, decode, formatF32]
  | log2 ix eofs =>
    have hn : (BitVec.ofInt 32 eofs).toInt = eofs := toInt_ofInt_of_fits h
    simp [encode, decode, formatF32E, hn]
  | expcon k sb =>
    have hk : (BitVec.ofInt 32 k).toInt = k := toInt_ofInt_of_fits h
    simp [encode, decode, formatK32S, hk]
  | exp2 xd sb => simp [encode, decode, formatF64S]

/-- Settles O4: a row of the decoder fixes every field of the request. -/
theorem encodeOfDecodeIsTheRequest : Obligations.EncodeOfDecodeIsTheRequest := by
  intro r i h
  have hd : Decodes r i := .of_decode h
  exact ⟨hd.encode_eq, hd.wf⟩

/-- The encoding of an instruction selects the row of its mnemonic (30_encoding.md R64). -/
theorem encode_selects_row (i : Instr) : Laws.TableRow.Statement i := by
  cases i with
  | zinfnan ix => exact Laws.TableRow.zinfnan ix
  | chkint iy => exact Laws.TableRow.chkint iy
  | fclass ix => exact Laws.TableRow.fclass ix
  | rcplk ix => exact Laws.TableRow.rcplk ix
  | log2 ix eofs => exact Laws.TableRow.log2 ix eofs
  | expcon k sb => exact Laws.TableRow.expcon k sb
  | exp2 xd sb => exact Laws.TableRow.exp2 xd sb

theorem Req.op_of_and {op : BitVec 8} (h : r.op &&& 0xFF#8 = op) : r.op = op :=
  BitVec.and_allOnes.symm.trans h

theorem Req.b_of_and {b : Word32} (h : r.b &&& 0xFFFFFFFF#32 = b) : r.b = b :=
  BitVec.and_allOnes.symm.trans h

theorem Req.aHi_eq_zero_of_and (h : r.a &&& 0xFFFFFFFF00000000#64 = 0) : r.aHi = 0 :=
  (aHi_eq r).trans (extractLsb'_eq_zero_of_and h (by decide))

theorem Req.bHi_eq_zero_of_and (h : r.b &&& 0xFFFFFFFE#32 = 0) : r.bHi = 0 :=
  (bHi_eq r).trans (extractLsb'_eq_zero_of_and h (by decide))

/-- What a row of format F32 with operation code `op` asks of a request that selects it (30_encoding.md R61). -/
theorem Req.fields_of_rowF32 {op : BitVec 8}
    (h : r &&& Req.pack 0xFF#8 0xFFFFFFFF#32 0xFFFFFFFF00000000#64 = Req.pack op 0 0) :
    r.op = op ∧ r.aHi = 0 ∧ r.b = 0 := by
  obtain ⟨hop, hb, ha⟩ := and_pack_eq_pack h
  exact ⟨op_of_and hop, aHi_eq_zero_of_and ha, b_of_and hb⟩

/-- A request that selects a row decodes as that row's operation. -/
theorem exists_decodes_of_row {row : OpcodeRow} (hmem : row ∈ opcodeTable) (h : r &&& row.mask = row.matchBits) :
    ∃ i, Decodes r i ∧ i.mnemonic = row.mnemonic := by
  simp only [opcodeTable, List.mem_cons, List.not_mem_nil, or_false] at hmem
  rcases hmem with rfl | rfl | rfl | rfl | rfl | rfl | rfl
  · obtain ⟨hop, ha, hb⟩ := Req.fields_of_rowF32 (op := 0x01#8) h
    exact ⟨_, .zinfnan hop ha hb, rfl⟩
  · obtain ⟨hop, ha, hb⟩ := Req.fields_of_rowF32 (op := 0x02#8) h
    exact ⟨_, .chkint hop ha hb, rfl⟩
  · obtain ⟨hop, ha, hb⟩ := Req.fields_of_rowF32 (op := 0x03#8) h
    exact ⟨_, .fclass hop ha hb, rfl⟩
  · obtain ⟨hop, ha, hb⟩ := Req.fields_of_rowF32 (op := 0x04#8) h
    exact ⟨_, .rcplk hop ha hb, rfl⟩
  · obtain ⟨hop, -, ha⟩ :=
      Req.and_pack_eq_pack (op := 0x05#8) (b := 0) (a := 0) (mop := 0xFF#8) (mb := 0) (ma := 0xFFFFFFFF00000000#64) h
    exact ⟨_, .log2 (Req.op_of_and hop) (Req.aHi_eq_zero_of_and ha), rfl⟩
  · obtain ⟨hop, hb, ha⟩ := Req.and_pack_eq_pack (op := 0x06#8) (b := 0) (a := 0) (mop := 0xFF#8) (mb := 0xFFFFFFFE#32)
      (ma := 0xFFFFFFFF00000000#64) h
    exact ⟨_, .expcon (Req.op_of_and hop) (Req.aHi_eq_zero_of_and ha) (Req.bHi_eq_zero_of_and hb), rfl⟩
  · obtain ⟨hop, hb, -⟩ :=
      Req.and_pack_eq_pack (op := 0x07#8) (b := 0) (a := 0) (mop := 0xFF#8) (mb := 0xFFFFFFFE#32) (ma := 0) h
    exact ⟨_, .exp2 (Req.op_of_and hop) (Req.bHi_eq_zero_of_and hb), rfl⟩

/-- Settles O5: a request that decodes is an encoding, which selects its row; a row fixes the code and the reserved
bits. -/
theorem decodeFollowsTheOpcodeTable : Obligations.DecodeFollowsTheOpcodeTable := by
  constructor
  · intro r i h
    have hd : Decodes r i := .of_decode h
    obtain ⟨row, hfind, hname, hmatch⟩ := encode_selects_row i hd.wf
    rw [hd.encode_eq] at hmatch
    exact ⟨row, List.mem_of_find?_eq_some hfind, hname, hmatch⟩
  · intro r row hmem h
    obtain ⟨i, hd, hname⟩ := exists_decodes_of_row hmem h
    exact ⟨i, hd.decode_eq, hname⟩

/-- Settles O6: the decoder evaluated on each word. -/
theorem specWordsDecode : Obligations.SpecWordsDecode := by
  unfold Obligations.SpecWordsDecode
  decide

end Sys2Proof
end

section
/-! SUPPORT. The invariant (00_scope.md section 4) and the frame of a step: what `step_cases` and `exec_next` leave to
say of states, ports and runs. -/

namespace Sys2Proof.Machine

variable {s t : State} {p : Pending} {rest : List Pending} {rsp : Response}

/-! ### The invariant -/

theorem inv_iff : s.inv = true ↔ s.cfg.wf = true ∧ (∀ p ∈ s.requests, p.port < s.cfg.nports) ∧
    ∀ d ∈ s.responses, d.port < s.cfg.nports ∧ d.rsp.wf = true := by
  simp [State.inv, State.requestsOk, State.responsesOk, and_assoc]

theorem takeReset_keeps_inv (h : s.inv = true) : (takeReset s).inv = true := by
  obtain ⟨hw, -, hrsp⟩ := inv_iff.mp h
  exact inv_iff.mpr ⟨hw, by simp, hrsp⟩

theorem answered_keeps_inv (h : s.inv = true) (hr : s.requests = p :: rest) (hrsp : rsp.wf = true) :
    (s.answered p rest rsp).inv = true := by
  obtain ⟨hw, hreq, hold⟩ := inv_iff.mp h
  rw [hr] at hreq
  obtain ⟨hp, hrest⟩ := List.forall_mem_cons.mp hreq
  refine inv_iff.mpr ⟨hw, hrest, fun d hd => ?_⟩
  rcases List.mem_append.mp hd with hd | hd
  · exact hold d hd
  · rw [List.mem_singleton.mp hd]
    exact ⟨hp, hrsp⟩

/-- Settles O15: each of the three things a step can do keeps the invariant. -/
theorem stepKeepsTheInvariant : Obligations.StepKeepsTheInvariant := by
  intro s t hinv hstep
  obtain ⟨-, rfl | rfl | ⟨p, rest, rsp, hr, -, rfl, hrsp⟩⟩ := step_cases hstep
  · exact takeReset_keeps_inv hinv
  · exact hinv
  · exact answered_keeps_inv hinv hr hrsp

/-- Settles O16: RC0 is well formed, and nothing is in flight. -/
theorem resetMeetsTheInvariant : Obligations.ResetMeetsTheInvariant :=
  ⟨inv_iff.mpr ⟨Config.rc0_wf, by simp, by simp⟩, State.reset_requests⟩

/-! ### The cases of a step -/

theorem step_of_resetPending (hw : s.cfg.wf = true) (hr : s.resetPending = true) : step s = .next (takeReset s) := by
  simp [step, hw, hr]

theorem step_of_idle (hw : s.cfg.wf = true) (hr : s.resetPending = false) (h : s.requests = []) : step s = .next s := by
  simp [step, hw, hr, fetch_nil h]

/-- Settles O22: the configuration is checked before anything else. -/
theorem illFormedConfigIsRefused : Obligations.IllFormedConfigIsRefused := by
  intro s h
  simp [step, h]

/-- Settles O7, by the law of a step with a request in front. -/
theorem stepRunsTheDecodedInstruction : Obligations.StepRunsTheDecodedInstruction :=
  fun _ _ _ _ hw hr h hp hd => step_of_decodes hw hr h hp (.of_decode hd)

/-- With a request in front an invariant state answers it as if it were alone. -/
theorem step_of_inv_cons (hinv : s.inv = true) (hr : s.resetPending = false) (h : s.requests = p :: rest) :
    ∃ rsp, blockAnswer s.cfg p.req = some rsp ∧ step s = .next (s.answered p rest rsp) := by
  obtain ⟨hw, hports⟩ := wf_and_ports_of_inv hinv
  exact step_answers_asIfAlone hw hr h (hports p (by simp [h]))

/-- Settles O12: the step performs the request, and performing it answers it. -/
theorem stepAnswersTheRequestInFront : Obligations.StepAnswersTheRequestInFront := by
  intro s p rest hinv hr h
  obtain ⟨hw, hports⟩ := wf_and_ports_of_inv hinv
  rw [step_cons hw hr h (hports p (by simp [h]))]
  exact perform_cons hw h

/-- Settles O13: every next state of an instruction is the answer to the request in front. -/
theorem everyInstructionFrame : Obligations.EveryInstructionFrame := by
  intro i s t hexec
  obtain ⟨p, rest, rsp, h, rfl, hrsp⟩ := exec_next hexec
  refine ⟨p, rest, rsp, h, State.answered_cfg .., State.answered_resetPending .., State.answered_requests ..,
    State.answered_responses .., hrsp, fun port hport => ?_⟩
  exact ⟨State.responsesOn_answered_of_ne rsp hport, State.requestsOn_answered_of_ne rsp h hport⟩

/-! ### Runs -/

/-- From an invariant state a step neither faults nor refuses. -/
theorem exists_step_of_inv (hinv : s.inv = true) : ∃ t, step s = .next t := by
  have hw : s.cfg.wf = true := (wf_and_ports_of_inv hinv).1
  cases hr : s.resetPending with
  | true => exact ⟨_, step_of_resetPending hw hr⟩
  | false =>
    cases h : s.requests with
    | nil => exact ⟨_, step_of_idle hw hr h⟩
    | cons p rest =>
      obtain ⟨rsp, -, hstep⟩ := step_of_inv_cons hinv hr h
      exact ⟨_, hstep⟩

/-- Settles O17, by induction on the number of steps: each is possible, and keeps the invariant. -/
theorem invariantStatesAreSafe : Obligations.InvariantStatesAreSafe := by
  intro s hinv k
  induction k generalizing s with
  | zero => exact ⟨s, rfl⟩
  | succ k ih =>
    obtain ⟨u, hu⟩ := exists_step_of_inv hinv
    obtain ⟨t, ht⟩ := ih u (stepKeepsTheInvariant s u hinv hu)
    exact ⟨t, (runSteps_succ hu).trans ht⟩

/-- With nothing in flight and no reset pending a run of any length waits (log 7). -/
theorem runSteps_of_idle (hw : s.cfg.wf = true) (hr : s.resetPending = false) (h : s.requests = []) (k : Nat) :
    runSteps k s = .next s := by
  induction k with
  | zero => rfl
  | succ k ih => exact (runSteps_succ (step_of_idle hw hr h)).trans ih

/-- Settles O20: taking reset leaves nothing in flight, so every later step waits. -/
theorem resetDropsRequestsForGood : Obligations.ResetDropsRequestsForGood := by
  intro s hinv hr
  have hw : s.cfg.wf = true := (wf_and_ports_of_inv hinv).1
  refine ⟨takeReset s, step_of_resetPending hw hr, State.takeReset_requests s, State.takeReset_resetPending s,
    State.takeReset_cfg s, State.takeReset_responses s, ?_⟩
  exact runSteps_of_idle hw (State.takeReset_resetPending s) (State.takeReset_requests s)

/-- Settles O21: after reset the submitted request is alone in flight, so it is the one in front. -/
theorem firstRequestAfterResetIsAnswered : Obligations.FirstRequestAfterResetIsAnswered := by
  intro s port req hinv hport
  have hw : s.cfg.wf = true := (wf_and_ports_of_inv hinv).1
  have hreset : step s.assertReset = .next (takeReset s.assertReset) :=
    step_of_resetPending hw (State.assertReset_resetPending s)
  have hfront : ((takeReset s.assertReset).submit port req).requests = [⟨port, req⟩] :=
    State.submit_requests (takeReset s.assertReset) port req hport
  obtain ⟨rsp, halone, hstep⟩ := step_answers_asIfAlone (s := (takeReset s.assertReset).submit port req)
    (by simpa using hw) (by simp) hfront (by simpa using hport)
  exact ⟨_, _, rsp, hreset, hstep, by simpa using halone, by simp, State.answered_requests ..⟩

/-- Settles O19: both states give the request in front the response that the block gives it alone. -/
theorem responseDependsOnOwnRequestOnly : Obligations.ResponseDependsOnOwnRequestOnly := by
  intro s s' p p' rest rest' hinv hinv' hr hr' h h' hcfg hreq
  obtain ⟨rsp, halone, hstep⟩ := step_of_inv_cons hinv hr h
  obtain ⟨rsp', halone', hstep'⟩ := step_of_inv_cons hinv' hr' h'
  rw [← hcfg, ← hreq, halone] at halone'
  exact ⟨rsp, hstep, Option.some.inj halone' ▸ hstep'⟩

/-! ### Lanes of a response -/

/-- A meaning that answers gives one response. -/
theorem response_unique {m : Result} {rsp' : Response} (h : m = .next (s.answered p rest rsp))
    (h' : m = .next (s.answered p rest rsp')) : rsp = rsp' := by
  have hs := congrArg State.responses (Host.Outcome.next.inj (h.symm.trans h'))
  simpa using hs

theorem lanes_zero_of_raiseFault {code : FaultCode} (hr : s.requests = p :: rest)
    (h : raiseFault code s = .next (s.answered p rest rsp)) : rsp.r1 = 0 ∧ rsp.r2 = 0 := by
  rw [response_unique h (raiseFault_cons code hr)]
  exact ⟨rfl, rfl⟩

theorem lanes_zero_of_completeRead {r0 : Option Word64} (hr : s.requests = p :: rest)
    (h : completeRead r0 s = .next (s.answered p rest rsp)) : rsp.r1 = 0 ∧ rsp.r2 = 0 := by
  obtain ⟨y, -, -, rfl, -, -⟩ := completeRead_eq_next h
  rw [response_unique h (completeRead_some y hr)]
  exact ⟨rfl, rfl⟩

/-- Of the seven operations only RCPLK uses `r1` and `r2` (30_encoding.md R63). -/
theorem lanes_zero_of_ne_rcplk {i : Instr} (hi : ∀ ix, i ≠ .rcplk ix) (hr : s.requests = p :: rest)
    (h : exec i s = .next (s.answered p rest rsp)) : rsp.r1 = 0 ∧ rsp.r2 = 0 := by
  have hread {c : Bool} {r0 : Option Word64}
      (h : (if c then completeRead r0 s else raiseFault .ooc s) = .next (s.answered p rest rsp)) :
      rsp.r1 = 0 ∧ rsp.r2 = 0 := by
    split at h
    · exact lanes_zero_of_completeRead hr h
    · exact lanes_zero_of_raiseFault hr h
  cases i with
  | zinfnan ix => exact lanes_zero_of_completeRead (r0 := some (predicateCode (zeroInfNan ix))) hr h
  | chkint iy => exact lanes_zero_of_completeRead (r0 := some (integralityCode (checkInteger iy))) hr h
  | fclass ix => exact lanes_zero_of_completeRead (r0 := some (classCode (classify ix))) hr h
  | rcplk ix => exact absurd rfl (hi ix)
  | log2 ix eofs => exact hread (c := inContractLog ix) h
  | expcon k sb => exact hread (c := inContractExpcon s.cfg k) h
  | exp2 xd sb => exact hread (c := inContractExp xd) h

theorem predicateCode_le (b : Bool) : (predicateCode b).toNat ≤ 1 := by cases b <;> decide

theorem integralityCode_le (c : Integrality) : (integralityCode c).toNat ≤ 2 := by cases c <;> decide

theorem classCode_le (c : FpClass) : (classCode c).toNat ≤ 3 := by cases c <;> decide

/-- Settles O23: the lanes by the operation, the codes by their tables (10_state.md R30, R31). -/
theorem unusedLanesAreZero : Obligations.UnusedLanesAreZero := by
  intro i s p rest rsp hr h
  refine ⟨fun hi => lanes_zero_of_ne_rcplk hi hr h, ?_, ?_, ?_⟩
  · rintro ix rfl
    rw [response_unique h (complete_cons _ hr)]
    exact predicateCode_le _
  · rintro iy rfl
    rw [response_unique h (complete_cons _ hr)]
    exact integralityCode_le _
  · rintro ix rfl
    rw [response_unique h (complete_cons _ hr)]
    exact classCode_le _

end Sys2Proof.Machine
end

section
/-! SUPPORT. The classifier (40_classifier.md) by the fields and the value of its operand: zero-inf-nan and the class
from the magnitude, and check-integer from the significand. -/

namespace Sys2Proof.Machine

variable {ix iy : Word32} {s : State} {p : Pending} {rest : List Pending}

/-! ### ZINFNAN and FCLASS -/

/-- The unsigned comparison, which wraps at a zero (40_classifier.md, ZINFNAN in words). -/
theorem zeroInfNan_iff (ix : Word32) :
    zeroInfNan ix = true ↔ expField32 ix = 255 ∨ (expField32 ix = 0 ∧ fracField32 ix = 0) := by
  have hlt : ix.toNat < 2 ^ 32 := ix.isLt
  have hdouble : ((ix <<< 1) - 1).toNat = (2 ^ 32 - 1 + ix.toNat * 2 % 2 ^ 32) % 2 ^ 32 := by
    rw [BitVec.toNat_sub, BitVec.toNat_shiftLeft, Nat.shiftLeft_eq]
    rfl
  have hmask : ((expMask <<< 1) - 1).toNat = 0xFEFFFFFF := by decide
  rw [zeroInfNan, BitVec.ule_eq_decide, decide_eq_true_eq, hdouble, hmask, expField32_eq, fracField32_eq]
  omega

/-- The class from the two fields of the magnitude (10_state.md R30). -/
theorem classify_eq (ix : Word32) : classify ix =
    if expField32 ix = 0 ∧ fracField32 ix = 0 then .zero
    else if expField32 ix = 255 then (if fracField32 ix = 0 then .infinite else .nan) else .finiteNonzero := by
  have hmag := mag32_fields ix
  have hexp := expField32_lt ix
  have hfrac := fracField32_lt ix
  have hzero : mag32 ix = 0 ↔ expField32 ix = 0 ∧ fracField32 ix = 0 := by
    rw [← BitVec.toNat_inj, hmag]
    show _ = 0 ↔ _
    omega
  have hinf : mag32 ix = 0x7F800000#32 ↔ expField32 ix = 255 ∧ fracField32 ix = 0 := by
    rw [← BitVec.toNat_inj, hmag, BitVec.toNat_ofNat]; omega
  have hnan : (0x7F800000#32).ult (mag32 ix) = true ↔ expField32 ix = 255 ∧ fracField32 ix ≠ 0 := by
    rw [BitVec.ult_eq_decide, decide_eq_true_eq, hmag, BitVec.toNat_ofNat]; omega
  simp only [classify, hzero, hinf, hnan]
  split_ifs <;> simp_all

theorem predicateCode_eq_ite (b : Bool) : predicateCode b = if b = true then 1 else 0 := by cases b <;> rfl

theorem predicateCode_eq_one_iff (b : Bool) : predicateCode b = 1 ↔ b = true := by cases b <;> decide

theorem exec_zinfnan (h : s.requests = p :: rest) :
    exec (.zinfnan ix) s = .next (s.answered p rest ⟨.ok, predicateCode (zeroInfNan ix), 0, 0⟩) :=
  complete_cons _ h

theorem exec_chkint (h : s.requests = p :: rest) :
    exec (.chkint iy) s = .next (s.answered p rest ⟨.ok, integralityCode (checkInteger iy), 0, 0⟩) :=
  complete_cons _ h

theorem exec_fclass (h : s.requests = p :: rest) :
    exec (.fclass ix) s = .next (s.answered p rest ⟨.ok, classCode (classify ix), 0, 0⟩) :=
  complete_cons _ h

/-- Settles O24: the predicate's code, and the comparison on fields. -/
theorem zinfnanResult : Obligations.ZinfnanResult := by
  intro ix s p rest h
  simpa only [predicateCode_eq_ite, zeroInfNan_iff] using exec_zinfnan (ix := ix) h

/-- Settles O26: the code of each class. -/
theorem fclassResult : Obligations.FclassResult := by
  intro ix s p rest h
  rw [exec_fclass h, classify_eq]
  split_ifs <;> rfl

/-- ZINFNAN tells the class finite-nonzero from the three others (40_classifier.md R106). -/
theorem zeroInfNan_iff_classify_ne (ix : Word32) : zeroInfNan ix = true ↔ classify ix ≠ .finiteNonzero := by
  rw [zeroInfNan_iff, classify_eq]
  split_ifs <;> simp_all

/-- Settles O27: the codes 1 and 3 stand for the predicate and for finite-nonzero. -/
theorem zinfnanAgreesWithFclass : Obligations.ZinfnanAgreesWithFclass := by
  intro ix s p rest h
  have hclass (c : FpClass) : classCode c = 3 ↔ c = .finiteNonzero := by cases c <;> decide
  refine ⟨_, _, exec_zinfnan h, exec_fclass h, ?_⟩
  rw [predicateCode_eq_one_iff, Ne, hclass]
  exact zeroInfNan_iff_classify_ne ix

/-! ### CHKINT -/

theorem and_low_mask_eq_zero_iff (v : Word32) {s : Nat} (hs : s < 32) :
    v &&& ((1#32 <<< s) - 1) = 0 ↔ v.toNat % 2 ^ s = 0 := by
  have hpow : 2 ^ s < 2 ^ 32 := Nat.pow_lt_pow_right (by norm_num) hs
  have hpos : 0 < 2 ^ s := by positivity
  have hmask : ((1#32 <<< s) - 1).toNat = 2 ^ s - 1 := by
    rw [BitVec.toNat_sub, BitVec.toNat_shiftLeft, Nat.shiftLeft_eq]
    show (2 ^ 32 - 1 + 1 * 2 ^ s % 2 ^ 32) % 2 ^ 32 = 2 ^ s - 1
    omega
  rw [← BitVec.toNat_inj, BitVec.toNat_and, hmask, Nat.and_two_pow_sub_one_eq_mod]
  rfl

theorem and_bit_eq_zero_iff (v : Word32) {s : Nat} (hs : s < 32) :
    v &&& (1#32 <<< s) = 0 ↔ v.toNat / 2 ^ s % 2 = 0 := by
  have hbit : (1#32 <<< s) = BitVec.twoPow 32 s := (BitVec.twoPow_eq 32 s).symm
  have hne : BitVec.twoPow 32 s ≠ 0 := by
    intro h
    have := congrArg BitVec.toNat h
    rw [BitVec.toNat_twoPow_of_lt hs] at this
    simp at this
  rw [hbit, BitVec.and_twoPow, BitVec.getLsbD, Nat.testBit_eq_decide_div_mod_eq]
  split <;> simp_all

/-- With an exponent field from 127 to 150 the fraction of the value is in the low `s` bits of the significand, and the
pattern has the significand's bits there and at `s` (40_classifier.md R103). -/
theorem toNat_mod_eq_significand {s : Nat} (hs : s ≤ 23) (he : expField32 iy + s = 150) :
    iy.toNat % 2 ^ (s + 1) = (2 ^ 23 + fracField32 iy) % 2 ^ (s + 1) := by
  have hfields := toNat_fields32 iy
  have hupper : ∃ c, iy.toNat = 2 ^ 23 + fracField32 iy + 2 ^ (s + 1) * c := by
    rcases Nat.lt_or_eq_of_le hs with hlt | rfl
    · have hpow : 2 ^ 23 = 2 ^ (s + 1) * 2 ^ (22 - s) := by rw [← pow_add]; congr 1; omega
      refine ⟨2 ^ (22 - s) * ((if iy.msb then 256 else 0) + expField32 iy - 1), ?_⟩
      rw [← mul_assoc, ← hpow, hfields]
      split <;> omega
    · exact ⟨(if iy.msb then 128 else 0) + 63, by rw [hfields]; split <;> omega⟩
  obtain ⟨c, hc⟩ := hupper
  rw [hc, Nat.add_mul_mod_self_left]

theorem checkInteger_of_lt (h : expField32 iy < 127) : checkInteger iy = .notInteger := if_pos h

theorem checkInteger_of_gt (h : 150 < expField32 iy) : checkInteger iy = .evenInteger :=
  (if_neg (by omega)).trans (if_pos h)

/-- Between, the answer is read off the significand: its low `s` bits are the fraction, bit `s` the parity. -/
theorem checkInteger_of_between {s : Nat} (hs : s ≤ 23) (he : expField32 iy + s = 150) :
    checkInteger iy = if (2 ^ 23 + fracField32 iy) % 2 ^ s ≠ 0 then .notInteger
      else if (2 ^ 23 + fracField32 iy) / 2 ^ s % 2 = 1 then .oddInteger else .evenInteger := by
  have hsig := toNat_mod_eq_significand hs he
  have hlow : iy.toNat % 2 ^ s = (2 ^ 23 + fracField32 iy) % 2 ^ s := by
    have hdvd : 2 ^ s ∣ 2 ^ (s + 1) := pow_dvd_pow 2 (Nat.le_succ s)
    rw [← Nat.mod_mod_of_dvd _ hdvd, hsig, Nat.mod_mod_of_dvd _ hdvd]
  have hbit : iy.toNat / 2 ^ s % 2 = (2 ^ 23 + fracField32 iy) / 2 ^ s % 2 := by
    rw [← Nat.mod_mul_right_div_self, ← Nat.mod_mul_right_div_self, ← pow_succ, hsig]
  have hshift : 0x7F + 23 - expField32 iy = s := by omega
  rw [checkInteger, if_neg (by omega), if_neg (by omega), hshift]
  simp only [ne_eq, and_low_mask_eq_zero_iff iy (by omega : s < 32), and_bit_eq_zero_iff iy (by omega : s < 32), hlow,
    hbit, Nat.mod_two_ne_zero]

/-- What an `Integrality` says of a value (10_state.md R31). -/
def Integrality.Holds (v : ℚ) : Integrality → Prop
  | .notInteger => ∀ n : ℤ, v ≠ n
  | .oddInteger => ∃ n : ℤ, v = n ∧ n % 2 = 1
  | .evenInteger => ∃ n : ℤ, v = n ∧ n % 2 = 0

/-- A value whose magnitude is the integer `q` is an integer of the parity of `q`. -/
theorem exists_int_of_magnitude {u : Unpacked} {q : Nat} (h : (u.sig : ℚ) * 2 ^ u.exp = q) :
    ∃ n : ℤ, Unpacked.val u = n ∧ n % 2 = q % 2 := by
  refine ⟨if u.neg then -q else q, ?_, ?_⟩
  · rw [Unpacked.val, mul_assoc, h]
    cases u.neg <;> simp
  · split <;> omega

/-- A value with `s` fraction bits, not all zero, is no integer. -/
theorem val_ne_int {u : Unpacked} {s : Nat} (hexp : u.exp = -s) (hsig : u.sig % 2 ^ s ≠ 0) (n : ℤ) :
    Unpacked.val u ≠ n := by
  intro h
  have hpow : (2 : ℚ) ^ s ≠ 0 := by positivity
  have hscaled : signedSig u = n * 2 ^ s := by
    rw [val_unpack, hexp, zpow_neg, zpow_natCast, ← div_eq_mul_inv, div_eq_iff hpow] at h
    exact_mod_cast h
  have hnat : u.sig = n.natAbs * 2 ^ s := by
    rw [← natAbs_signedSig, hscaled, Int.natAbs_mul, Int.natAbs_pow]
    rfl
  exact hsig (by rw [hnat, Nat.mul_mod_left])

theorem mag32_eq_zero_iff (b : Word32) : mag32 b = 0 ↔ expField32 b = 0 ∧ fracField32 b = 0 := by
  rw [← BitVec.toNat_inj, mag32_fields]
  show _ = 0 ↔ _
  omega

theorem unpack32_normal (h : expField32 iy ≠ 0) :
    unpack32 iy = ⟨iy.msb, 2 ^ 23 + fracField32 iy, expField32 iy - 150⟩ := if_neg h

theorem unpack32_sig_ne_zero (h : mag32 iy ≠ 0) : (unpack32 iy).sig ≠ 0 := by
  rw [Ne, mag32_eq_zero_iff, not_and] at h
  unfold unpack32
  split
  next hzero => exact h hzero
  next => exact Nat.ne_of_gt (by positivity)

theorem unpack32_exp_le (h : expField32 iy < 127) : (unpack32 iy).exp ≤ -24 := by
  unfold unpack32
  split
  · norm_num
  · show (expField32 iy : ℤ) - 150 ≤ -24
    omega

/-- Below 1 the value has more fraction bits than the significand has bits. -/
theorem val32_ne_int_of_lt (h : expField32 iy < 127) (hnz : mag32 iy ≠ 0) (n : ℤ) : val32 iy ≠ n := by
  have hexp := unpack32_exp_le h
  have hsig := unpack32_sig_lt iy
  obtain ⟨s, hs, hs'⟩ : ∃ s : Nat, 24 ≤ s ∧ (unpack32 iy).exp = -s :=
    ⟨(-(unpack32 iy).exp).toNat, by omega, by omega⟩
  have hpow : 2 ^ 24 ≤ 2 ^ s := Nat.pow_le_pow_right (by norm_num) hs
  exact val_ne_int hs' (by rw [Nat.mod_eq_of_lt (by omega)]; exact unpack32_sig_ne_zero hnz) n

/-- From `2^24` up the value is an even multiple of the significand. -/
theorem exists_even_of_gt (h : 150 < expField32 iy) : ∃ n : ℤ, val32 iy = n ∧ n % 2 = 0 := by
  obtain ⟨t, ht⟩ : ∃ t : Nat, expField32 iy = 151 + t := ⟨expField32 iy - 151, by omega⟩
  have hexp : (expField32 iy : ℤ) - 150 = ((t + 1 : Nat) : ℤ) := by omega
  have hmag : ((unpack32 iy).sig : ℚ) * 2 ^ (unpack32 iy).exp = ((2 ^ 23 + fracField32 iy) * 2 ^ t * 2 : Nat) := by
    rw [unpack32_normal (by omega)]
    simp only [hexp, zpow_natCast]
    push_cast
    ring
  obtain ⟨n, hval, hpar⟩ := exists_int_of_magnitude hmag
  exact ⟨n, hval, by omega⟩

/-- Between, the value is an integer exactly where the fraction bits are zero, and the parity is that of the rest. -/
theorem checkInteger_holds_between {s : Nat} (hs : s ≤ 23) (he : expField32 iy + s = 150) :
    (checkInteger iy).Holds (val32 iy) := by
  have hunpack := unpack32_normal (iy := iy) (by omega)
  have hexp : (unpack32 iy).exp = -s := by rw [hunpack]; simp; omega
  rw [checkInteger_of_between hs he]
  by_cases hmod : (2 ^ 23 + fracField32 iy) % 2 ^ s = 0
  · have hmag : ((unpack32 iy).sig : ℚ) * 2 ^ (unpack32 iy).exp = ((2 ^ 23 + fracField32 iy) / 2 ^ s : Nat) := by
      rw [hexp, zpow_neg, zpow_natCast, ← div_eq_mul_inv, Nat.cast_div (Nat.dvd_of_mod_eq_zero hmod) (by positivity),
        hunpack]
      push_cast
      rfl
    obtain ⟨n, hval, hpar⟩ := exists_int_of_magnitude hmag
    rw [if_neg (not_not.mpr hmod)]
    split
    next hodd => exact ⟨n, hval, by omega⟩
    next heven => exact ⟨n, hval, by omega⟩
  · rw [if_pos hmod]
    exact val_ne_int hexp (by rw [hunpack]; exact hmod)

/-- Check-integer answers what the value of a nonzero pattern is (40_classifier.md, CHKINT in words). -/
theorem checkInteger_holds (hnz : mag32 iy ≠ 0) : (checkInteger iy).Holds (val32 iy) := by
  rcases Nat.lt_or_ge (expField32 iy) 127 with hlt | hge
  · rw [checkInteger_of_lt hlt]
    exact val32_ne_int_of_lt hlt hnz
  rcases Nat.lt_or_ge 150 (expField32 iy) with hgt | hle
  · rw [checkInteger_of_gt hgt]
    exact exists_even_of_gt hgt
  · exact checkInteger_holds_between (s := 150 - expField32 iy) (by omega) (by omega)

/-- Settles O25: the code of an `Integrality` that holds of the value; the other patterns by their exponent field. -/
theorem chkintResult : Obligations.ChkintResult := by
  intro iy s p rest h
  refine ⟨_, exec_chkint h, fun _ hnz => ?_, fun hzero => ?_, fun hones => ?_⟩
  · have hholds := checkInteger_holds hnz
    cases hc : checkInteger iy with
    | notInteger => rw [hc] at hholds; exact .inl ⟨rfl, hholds⟩
    | oddInteger => rw [hc] at hholds; exact .inr (.inl ⟨rfl, hholds⟩)
    | evenInteger => rw [hc] at hholds; exact .inr (.inr ⟨rfl, hholds⟩)
  · rw [checkInteger_of_lt (by omega)]; rfl
  · rw [checkInteger_of_gt (by omega)]; rfl

/-! ### The sign -/

theorem expField32_xor_sign (b : Word32) : expField32 (b ^^^ 0x80000000#32) = expField32 b := by
  have h := toNat_xor_sign32 b
  rw [expField32_eq, expField32_eq]
  omega

theorem fracField32_xor_sign (b : Word32) : fracField32 (b ^^^ 0x80000000#32) = fracField32 b := by
  have h := toNat_xor_sign32 b
  rw [fracField32_eq, fracField32_eq]
  omega

theorem zeroInfNan_xor_sign (b : Word32) : zeroInfNan (b ^^^ 0x80000000#32) = zeroInfNan b := by
  rw [Bool.eq_iff_iff, zeroInfNan_iff, zeroInfNan_iff, expField32_xor_sign, fracField32_xor_sign]

theorem classify_xor_sign (b : Word32) : classify (b ^^^ 0x80000000#32) = classify b := by
  rw [classify_eq, classify_eq, expField32_xor_sign, fracField32_xor_sign]

theorem checkInteger_xor_sign (b : Word32) : checkInteger (b ^^^ 0x80000000#32) = checkInteger b := by
  have hexp := expField32_xor_sign b
  rcases Nat.lt_or_ge (expField32 b) 127 with hlt | hge
  · rw [checkInteger_of_lt hlt, checkInteger_of_lt (hexp ▸ hlt)]
  rcases Nat.lt_or_ge 150 (expField32 b) with hgt | hle
  · rw [checkInteger_of_gt hgt, checkInteger_of_gt (hexp ▸ hgt)]
  · obtain ⟨s, hs⟩ : ∃ s : Nat, expField32 b + s = 150 := ⟨150 - expField32 b, by omega⟩
    rw [checkInteger_of_between (by omega) hs, checkInteger_of_between (by omega) (hexp ▸ hs), fracField32_xor_sign]

/-- Settles O28: the three kernels read the fields of the magnitude only. -/
theorem classifierIgnoresTheSign : Obligations.ClassifierIgnoresTheSign := by
  intro ix s
  refine ⟨?_, ?_, ?_⟩
  · simp only [exec, execZinfnan, zeroInfNan_xor_sign]
  · simp only [exec, execChkint, checkInteger_xor_sign]
  · simp only [exec, execFclass, classify_xor_sign]

end Sys2Proof.Machine
end

section
/-! SUPPORT. RCPLK and LOG2 (41_log2.md): the lanes of RCPLK, the value of the decomposition, the bounds of the
polynomial, and its exact cases. -/

namespace Sys2Proof.Machine

variable {cfg : Config} {ix : Word32} {eofs : Int} {entry : Log2Entry} {s : State} {p : Pending} {rest : List Pending}

/-! ### Results -/

theorem packLookup_index (d : Decomp) : (packLookup d).extractLsb' 48 16 = BitVec.ofNat 16 d.i := by
  ext j hj; simp [packLookup]; grind

theorem packLookup_k (d : Decomp) : (packLookup d).extractLsb' 32 16 = BitVec.ofInt 16 d.k := by
  ext j hj; simp [packLookup]; grind

theorem packLookup_iz (d : Decomp) : (packLookup d).extractLsb' 0 32 = d.iz := by
  ext j hj; simp [packLookup]; grind

/-- In contract the exponent survives its 16 bits (41_log2.md R134). -/
theorem packLookup_k_toInt (hw : cfg.wf = true) (hc : inContractLog ix = true) :
    ((packLookup (decompose cfg ix)).extractLsb' 32 16).toInt = (decompose cfg ix).k := by
  have hk := logK_range hw hc
  rw [← decompose_k hw hc] at hk
  rw [packLookup_k, BitVec.toInt_ofInt]
  exact Int.bmod_eq_of_le (by omega) (by omega)

/-- The index fits its 16 bits (00_scope.md R7). -/
theorem packLookup_index_toNat (hw : cfg.wf = true) :
    ((packLookup (decompose cfg ix)).extractLsb' 48 16).toNat = (decompose cfg ix).i := by
  have hlt : (decompose cfg ix).i < 2 ^ 16 :=
    decompose_i_lt.trans_le (Nat.pow_le_pow_right (by norm_num) (Config.wf_bl hw))
  rw [packLookup_index, BitVec.toNat_ofNat, Nat.mod_eq_of_lt hlt]

/-- The table entry of an operand in contract stands at the quotient index (41_log2.md R125). -/
theorem exists_log2_entry (hw : cfg.wf = true) (hc : inContractLog ix = true) :
    ∃ entry ∈ cfg.l2t, cfg.l2t[(logIndex cfg ix).toNat]? = some entry ∧
      memReadL2T cfg (decompose cfg ix).i = some entry := by
  obtain ⟨entry, hread, hmem⟩ := memReadL2T_of_lt hw (i := (decompose cfg ix).i) decompose_i_lt
  have hindex : (logIndex cfg ix).toNat = (decompose cfg ix).i := by rw [← decompose_i hw hc, Int.toNat_natCast]
  exact ⟨entry, hmem, hindex ▸ hread, hread⟩

theorem exec_rcplk (h : s.requests = p :: rest) (hc : inContractLog ix = true)
    (hread : memReadL2T s.cfg (decompose s.cfg ix).i = some entry) :
    exec (.rcplk ix) s =
      .next (s.answered p rest ⟨.ok, entry.invc, entry.logc, packLookup (decompose s.cfg ix)⟩) := by
  simp only [exec, execRcplk, hc, hread, if_true]
  exact complete_cons _ h

theorem exec_log2 (h : s.requests = p :: rest) (hc : inContractLog ix = true)
    (hread : memReadL2T s.cfg (decompose s.cfg ix).i = some entry) :
    exec (.log2 ix eofs) s =
      .next (s.answered p rest ⟨.ok, log2OfEntry s.cfg (decompose s.cfg ix) eofs entry, 0, 0⟩) := by
  simp only [exec, execLog2, hc, log2Value, hread, if_true, Option.map_some]
  exact completeRead_some _ h

/-- Settles O30: the entry at the quotient index, and the three parts of the packed lane. -/
theorem rcplkResult : Obligations.RcplkResult := by
  intro ix s p rest hw h hc
  obtain ⟨entry, -, hentry, hread⟩ := exists_log2_entry hw hc
  refine ⟨entry, _, hentry, exec_rcplk h hc hread, ?_, ?_, ?_⟩
  · rw [packLookup_index_toNat hw, decompose_i hw hc]
  · rw [packLookup_k_toInt hw hc, decompose_k hw hc]
  · rw [packLookup_iz, decompose_iz hw hc]

/-- Settles O33: the kernel's polynomial, with the exponent as the quotient it equals. -/
theorem log2Result : Obligations.Log2Result := by
  intro ix eofs s p rest hw h hc
  obtain ⟨entry, -, hentry, hread⟩ := exists_log2_entry hw hc
  refine ⟨entry, (decompose s.cfg ix).iz, hentry, decompose_iz hw hc, ?_⟩
  rw [← decompose_k hw hc]
  exact exec_log2 h hc hread

/-- Settles O34: the packed lane holds `iz` and `k`, and the other two the entry. -/
theorem log2ContainsRcplk : Obligations.Log2ContainsRcplk := by
  intro ix eofs s p rest hw h hc
  obtain ⟨entry, -, -, hread⟩ := exists_log2_entry hw hc
  refine ⟨_, _, _, exec_rcplk h hc hread, ?_⟩
  rw [packLookup_iz, packLookup_k_toInt hw hc]
  exact exec_log2 h hc hread

/-! ### The decomposition -/

theorem decompose_iz_inContract (hw : cfg.wf = true) (hc : inContractLog ix = true) :
    inContractLog (decompose cfg ix).iz = true := by
  have hiz := decompose_iz hw hc
  have hrange := logIz_range hw hc
  have hoff := Config.wf_off hw
  rw [inContractLog_iff]
  omega

/-- The value of a positive normal pattern `E * 2^23 + F` (00_scope.md R13). -/
theorem val32_of_inContract {b : Word32} {E F : Nat} (hc : inContractLog b = true) (h : b.toNat = E * 2 ^ 23 + F)
    (hF : F < 2 ^ 23) : val32 b = ((2 ^ 23 + F : Nat) : ℚ) * 2 ^ ((E : ℤ) - 150) := by
  obtain ⟨hsign, hexp, -⟩ := (inContractLog_iff_fields b).mp hc
  have hfields := toNat_fields32 b
  have hfrac := fracField32_lt b
  rw [hsign, if_neg Bool.false_ne_true] at hfields
  obtain ⟨hE, hF'⟩ : expField32 b = E ∧ fracField32 b = F := by omega
  rw [val32, unpack32_normal (by omega), Unpacked.val, hsign, hE, hF', if_neg Bool.false_ne_true, one_mul]

/-- Subtracting `k * 2^23` from a pattern divides its value by `2^k`. -/
theorem val32_eq_zpow_mul_val32_iz (hw : cfg.wf = true) (hc : inContractLog ix = true) :
    val32 ix = 2 ^ (decompose cfg ix).k * val32 (decompose cfg ix).iz := by
  have hiz := decompose_iz hw hc
  have hciz := (inContractLog_iff _).mp (decompose_iz_inContract hw hc)
  rw [logIz, ← decompose_k hw hc] at hiz
  have hF : ix.toNat % 2 ^ 23 < 2 ^ 23 := Nat.mod_lt _ (by norm_num)
  rw [val32_of_inContract hc (E := ix.toNat / 2 ^ 23) (Nat.div_add_mod' _ _).symm hF,
    val32_of_inContract (decompose_iz_inContract hw hc) (E := (decompose cfg ix).iz.toNat / 2 ^ 23)
      (F := ix.toNat % 2 ^ 23) (by omega) hF,
    mul_left_comm, ← zpow_add₀ (by norm_num : (2 : ℚ) ≠ 0)]
  congr 2
  omega

/-- Patterns of one binade from that of `c` up have values in `[c, 2c)`. -/
theorem val32_iz_range (hw : cfg.wf = true) (hc : inContractLog ix = true) :
    val32 cfg.off ≤ val32 (decompose cfg ix).iz ∧ val32 (decompose cfg ix).iz < 2 * val32 cfg.off := by
  have hiz := decompose_iz hw hc
  have hrange := logIz_range hw hc
  have hoff := Config.wf_off hw
  have hcoff : inContractLog cfg.off = true := by rw [inContractLog_iff]; omega
  have hciz := decompose_iz_inContract hw hc
  generalize (decompose cfg ix).iz = iz at *
  obtain ⟨E, F, hF, hoffeq⟩ : ∃ E F, F < 2 ^ 23 ∧ cfg.off.toNat = E * 2 ^ 23 + F :=
    ⟨_, _, Nat.mod_lt _ (by norm_num), (Nat.div_add_mod' _ (2 ^ 23)).symm⟩
  obtain ⟨E', F', hF', hizeq⟩ : ∃ E F, F < 2 ^ 23 ∧ iz.toNat = E * 2 ^ 23 + F :=
    ⟨_, _, Nat.mod_lt _ (by norm_num), (Nat.div_add_mod' _ (2 ^ 23)).symm⟩
  rw [val32_of_inContract hcoff hoffeq hF, val32_of_inContract hciz hizeq hF']
  have hFq : (F : ℚ) < 2 ^ 23 := by exact_mod_cast hF
  have hFq' : (F' : ℚ) < 2 ^ 23 := by exact_mod_cast hF'
  have hpos : (0 : ℚ) < 2 ^ ((E : ℤ) - 150) := by positivity
  obtain ⟨rfl, hle⟩ | ⟨rfl, hlt⟩ : (E' = E ∧ F ≤ F') ∨ (E' = E + 1 ∧ F' < F) := by omega
  · have hleq : (F : ℚ) ≤ F' := by exact_mod_cast hle
    push_cast
    constructor <;> nlinarith
  · have hltq : (F' : ℚ) < F := by exact_mod_cast hlt
    have hnext : ((E + 1 : Nat) : ℤ) - 150 = ((E : ℤ) - 150) + 1 := by push_cast; ring
    rw [hnext, zpow_add_one₀ (by norm_num)]
    push_cast
    constructor <;> nlinarith

/-- Settles O31: the scale of `z`, and its place in the reduction interval. -/
theorem decompositionIsExact : Obligations.DecompositionIsExact := by
  intro cfg ix hw hc
  obtain ⟨hlow, hhigh⟩ := val32_iz_range hw hc
  exact ⟨val32_eq_zpow_mul_val32_iz hw hc, hlow, hhigh, decompose_iz_inContract hw hc⟩

/-- Settles O32: the quotients are monotone, and RC0's `OFF` is known. -/
theorem decompositionRanges : Obligations.DecompositionRanges := by
  refine ⟨fun cfg ix hw hc => ?_, fun ix hc => ?_, by decide, by decide⟩
  · have hk := logK_range hw hc
    rw [← decompose_k hw hc] at hk
    have hrange := logIz_range hw hc
    rw [← decompose_iz hw hc] at hrange
    exact ⟨hk.1, hk.2, decompose_i_lt, by omega, by omega, by omega⟩
  · have hix := (inContractLog_iff ix).mp hc
    have hoff : rc0.off.toNat = 0x3F330000 := rfl
    rw [decompose_k Config.rc0_wf hc, logK, hoff]
    omega

/-! ### Bounds: LOG2 is finite -/

theorem boundedBy_f32ToF64 (h : isFinite32 ix = true) : BoundedBy 128 (f32ToF64 ix) := by
  obtain ⟨hfin, hval⟩ := val64_f32ToF64 h
  refine ⟨hfin, ?_⟩
  rw [hval, val32, Unpacked.val, mul_assoc, abs_signed _ (by positivity)]
  exact (sig32_lt ix h).le

theorem boundedBy_intToF64 {n : Int} (h : |n| ≤ 2 ^ 32) : BoundedBy 32 (intToF64 n) := by
  obtain ⟨hlow, hhigh⟩ := abs_le.mp h
  obtain ⟨hfin, hval⟩ := val64_intToF64 (n := n) (by omega)
  refine ⟨hfin, ?_⟩
  rw [hval]
  exact_mod_cast h

theorem isFinite32_of_inContract {b : Word32} (hc : inContractLog b = true) : isFinite32 b = true := by
  obtain ⟨-, -, hexp⟩ := (inContractLog_iff_fields b).mp hc
  rw [isFinite32_iff]
  omega

theorem fsub_boundedBy {a b : Word64} {k : ℤ} (ha : BoundedBy k a) (hb : BoundedBy k b) (hk : -1023 ≤ k)
    (hk' : k ≤ 1022) : BoundedBy (k + 1) (fsub a b) := fadd_boundedBy ha (fneg_boundedBy hb) hk hk'

/-- `residual` from `abs(z) <= 2^128` and `abs(invc) <= 4`. -/
theorem boundedBy_residual {iz : Word32} {invc : Word64} (hz : isFinite32 iz = true) (hi : BoundedBy 2 invc) :
    BoundedBy 131 (residual iz invc) :=
  fsub_boundedBy (fmul_boundedBy (boundedBy_f32ToF64 hz) hi (by norm_num) (by norm_num))
    (boundedBy_one64.mono (by norm_num)) (by norm_num) (by norm_num)

/-- One coefficient times the residual plus another term of the polynomial. -/
theorem boundedBy_mul_add {a r b : Word64} {k : ℤ} (ha : BoundedBy 2 a) (hr : BoundedBy k r) (hb : BoundedBy (2 + k) b)
    (hk : -1024 ≤ k) (hk' : k ≤ 1020) : BoundedBy (2 + k + 1) (fadd (fmul a r) b) :=
  fadd_boundedBy (fmul_boundedBy ha hr (by omega) (by omega)) hb (by omega) (by omega)

/-- The polynomial stays below `2^659`, coarse bounds for every well-formed configuration. -/
theorem boundedBy_polyLog2 {r logc : Word64} {n : Int} (hw : cfg.wf = true) (hr : BoundedBy 131 r)
    (hl : BoundedBy 1 logc) (hn : |n| ≤ 2 ^ 32) : BoundedBy 659 (polyLog2 cfg r logc n) := by
  have hA (j : Fin 5) : BoundedBy 2 (memReadA cfg j) := boundedBy_four (Config.wf_a hw j)
  have hAmono (j : Fin 5) : BoundedBy (2 + 131) (memReadA cfg j) := (hA j).mono (by norm_num)
  have hy0 : BoundedBy (32 + 1) (fadd logc (intToF64 n)) :=
    fadd_boundedBy (hl.mono (by norm_num)) (boundedBy_intToF64 hn) (by norm_num) (by norm_num)
  have hr2 : BoundedBy (131 + 131) (fmul r r) := fmul_boundedBy hr hr (by norm_num) (by norm_num)
  have hya := boundedBy_mul_add (hA 0) hr (hAmono 1) (by norm_num) (by norm_num)
  have hp := boundedBy_mul_add (hA 2) hr (hAmono 3) (by norm_num) (by norm_num)
  have hqa := boundedBy_mul_add (hA 4) hr (hy0.mono (by norm_num)) (by norm_num) (by norm_num)
  have hr4 := fmul_boundedBy hr2 hr2 (by norm_num) (by norm_num)
  have hqb := fadd_boundedBy (fmul_boundedBy hp hr2 (by norm_num) (by norm_num)) (hqa.mono (by norm_num)) (by norm_num)
    (by norm_num)
  exact (fadd_boundedBy (fmul_boundedBy hya hr4 (by norm_num) (by norm_num)) (hqb.mono (by norm_num)) (by norm_num)
    (by norm_num)).mono (by norm_num)

/-- The answer of LOG2 is bounded for every operand in contract and 32-bit offset (41_log2.md, the bounds). -/
theorem boundedBy_log2OfEntry (hw : cfg.wf = true) (hc : inContractLog ix = true) (he : fitsSint32 eofs = true)
    (hmem : entry ∈ cfg.l2t) : BoundedBy 659 (log2OfEntry cfg (decompose cfg ix) eofs entry) := by
  obtain ⟨hinvc, hlogc⟩ := Config.wf_l2t_entry hw hmem
  have hz := isFinite32_of_inContract (decompose_iz_inContract hw hc)
  have hk := logK_range hw hc
  rw [← decompose_k hw hc] at hk
  have hn : |(decompose cfg ix).k + eofs| ≤ 2 ^ 32 := by
    simp only [fitsSint32, Bool.and_eq_true, decide_eq_true_eq] at he
    rw [abs_le]
    omega
  exact boundedBy_polyLog2 hw (boundedBy_residual hz (boundedBy_four hinvc)) (boundedBy_two hlogc) hn

/-- Settles O35, by the bound. -/
theorem log2IsAlwaysFinite : Obligations.Log2IsAlwaysFinite := by
  intro ix eofs s p rest hw h hc he
  obtain ⟨entry, hmem, -, hread⟩ := exists_log2_entry hw hc
  exact ⟨_, exec_log2 h hc hread, (boundedBy_log2OfEntry hw hc he hmem).1⟩

/-! ### Doubling -/

theorem Decomp.eq_mk {d : Decomp} {k : Int} {iz : Word32} {i : Nat} (hk : d.k = k) (hiz : d.iz = iz) (hi : d.i = i) :
    d = ⟨k, iz, i⟩ := by
  subst hk hiz hi
  rfl

/-- Doubling the operand adds 1 to `k` and changes nothing else of the decomposition (41_log2.md R124). -/
theorem decompose_double (hw : cfg.wf = true) (hc : inContractLog ix = true)
    (hc2 : inContractLog (ix + 0x00800000#32) = true) :
    decompose cfg (ix + 0x00800000#32) = { decompose cfg ix with k := (decompose cfg ix).k + 1 } := by
  have hadd : (ix + 0x00800000#32).toNat = ix.toNat + 2 ^ 23 := by
    have h1 := (inContractLog_iff ix).mp hc
    rw [BitVec.toNat_add, BitVec.toNat_ofNat]
    omega
  have hk : logK cfg (ix + 0x00800000#32) = logK cfg ix + 1 := by
    rw [logK, logK, hadd]
    push_cast
    omega
  have hiz : logIz cfg (ix + 0x00800000#32) = logIz cfg ix := by
    rw [logIz, logIz, hk, hadd]
    push_cast
    ring
  have hi : logIndex cfg (ix + 0x00800000#32) = logIndex cfg ix := by rw [logIndex, logIndex, hiz]
  rw [← decompose_k hw hc2, ← decompose_k hw hc] at hk
  rw [← decompose_iz hw hc2, ← decompose_iz hw hc, Int.natCast_inj, BitVec.toNat_inj] at hiz
  rw [← decompose_i hw hc2, ← decompose_i hw hc, Int.natCast_inj] at hi
  exact Decomp.eq_mk hk hiz hi

/-- Settles O37: the decompositions differ in `k`, which enters the polynomial with the offset added. -/
theorem log2OffsetCountsDoublings : Obligations.Log2OffsetCountsDoublings := by
  intro ix eofs s hw hc hc2
  have hvalue : log2Value s.cfg (ix + 0x00800000#32) (eofs - 1) = log2Value s.cfg ix eofs := by
    have hn : (decompose s.cfg ix).k + 1 + (eofs - 1) = (decompose s.cfg ix).k + eofs := by ring
    have hof : log2OfEntry s.cfg { decompose s.cfg ix with k := (decompose s.cfg ix).k + 1 } (eofs - 1) =
        log2OfEntry s.cfg (decompose s.cfg ix) eofs := by
      funext entry
      simp only [log2OfEntry, hn]
    rw [log2Value, log2Value, decompose_double hw hc hc2, hof]
  simp only [exec, execLog2, hc, hc2, if_true, hvalue]

/-! ### Powers of two under RC0 -/

/-- Under RC0 a power of two has `z = 1`, in the interval whose entry is `{1, 0}` (41_log2.md R122). -/
theorem decompose_rc0_of_powerOfTwo (hc : inContractLog ix = true) (hfrac : fracField32 ix = 0) :
    decompose rc0 ix = ⟨(expField32 ix : Int) - 127, 0x3F800000#32, 9⟩ := by
  obtain ⟨hsign, -, -⟩ := (inContractLog_iff_fields ix).mp hc
  have hfields := toNat_fields32 ix
  rw [hsign, hfrac, if_neg Bool.false_ne_true] at hfields
  have hoff : rc0.off.toNat = 0x3F330000 := rfl
  have hk : logK rc0 ix = (expField32 ix : Int) - 127 := by rw [logK, hoff, hfields]; omega
  have hiz : logIz rc0 ix = (0x3F800000#32).toNat := by
    rw [logIz, hk, hfields, BitVec.toNat_ofNat]
    omega
  have hi : logIndex rc0 ix = 9 := by rw [logIndex, hiz]; decide
  rw [← decompose_k Config.rc0_wf hc] at hk
  rw [← decompose_iz Config.rc0_wf hc, Int.natCast_inj, BitVec.toNat_inj] at hiz
  rw [← decompose_i Config.rc0_wf hc] at hi
  exact Decomp.eq_mk hk hiz (by omega)

theorem residual_one : residual 0x3F800000#32 one64 = 0 := by decide +kernel

/-- With a zero residual every term of RC0's polynomial is a zero but `n`; terms of either sign leave `n` as it is. -/
theorem polyLog2_rc0_zero {n : Int} (hn : n.natAbs < 2 ^ 53) : polyLog2 rc0 0 0 n = intToF64 n := by
  by_cases hz : n = 0
  · subst hz
    decide +kernel
  obtain ⟨hfin, hval⟩ := val64_intToF64 hn
  have hne : val64 (intToF64 n) ≠ 0 := by rw [hval]; exact_mod_cast hz
  have hzero {a : Word64} (ha : a = 0 ∨ a = 0x8000000000000000#64) : fadd a (intToF64 n) = intToF64 n := by
    refine fadd_zero_left ?_ ?_ hfin hne <;> rcases ha with rfl | rfl <;> decide +kernel
  have hqa : fmul (memReadA rc0 4) 0 = 0 := by decide +kernel
  have hqb : fmul (fadd (fmul (memReadA rc0 2) 0) (memReadA rc0 3)) (fmul 0 0) = 0x8000000000000000#64 := by
    decide +kernel
  have hlast : fmul (fadd (fmul (memReadA rc0 0) 0) (memReadA rc0 1)) (fmul (fmul 0 0) (fmul 0 0)) =
      0x8000000000000000#64 := by decide +kernel
  rw [polyLog2, hqa, hqb, hlast, hzero (.inl rfl), hzero (.inl rfl), hzero (.inr rfl), hzero (.inr rfl)]

/-- Settles O36: a zero residual and a zero entry leave the exponent, which is exact in binary64. -/
theorem log2OfPowerOfTwoIsExact : Obligations.Log2OfPowerOfTwoIsExact := by
  intro ix eofs s p rest hcfg h hc hfrac he
  have hd := decompose_rc0_of_powerOfTwo hc hfrac
  have hread : memReadL2T s.cfg (decompose s.cfg ix).i = some ⟨one64, 0⟩ := by rw [hcfg, hd]; rfl
  have hn : ((expField32 ix : Int) - 127 + eofs).natAbs < 2 ^ 53 := by
    have hexp := expField32_lt ix
    simp only [fitsSint32, Bool.and_eq_true, decide_eq_true_eq] at he
    omega
  have hpoly : log2OfEntry s.cfg (decompose s.cfg ix) eofs ⟨one64, 0⟩ = intToF64 ((expField32 ix : Int) - 127 + eofs) := by
    rw [log2OfEntry, hcfg, hd, residual_one, polyLog2_rc0_zero hn]
  obtain ⟨hfin, hval⟩ := val64_intToF64 hn
  refine ⟨_, hpoly ▸ exec_log2 h hc hread, hfin, hval, fun hzero => ?_⟩
  rw [hzero]
  exact scaledIntToF64_zero 0

end Sys2Proof.Machine
end

section
/-! SUPPORT. Sums and products as roundings of the exact value (41_log2.md R120), the signs of exact zeros, and what
rounding to nearest says of bounds. -/

namespace Sys2Proof.Machine

variable {a b c r : Word64} {v : ℚ}

/-! ### One rounding -/

theorem fadd_isRne (ha : isFinite64 a = true) (hb : isFinite64 b = true) (h : val64 a + val64 b ≠ 0) :
    IsRne (val64 a + val64 b) (fadd a b) := by
  have hsum : sumSig a b ≠ 0 := (sumSig_eq_zero_iff a b).not.mpr h
  rw [fadd_finite ha hb, faddFinite_of_ne hsum, val64_add, ← sign_mul_natAbs (sumSig a b), mul_assoc]
  exact round64_isRne _ (Int.natAbs_ne_zero.mpr hsum) _

/-- The exact product: the exclusive or of the signs, the product of the significands. -/
theorem val64_mul (a b : Word64) : val64 a * val64 b = (if (a.msb ^^ b.msb) then -1 else 1) *
    ((((unpack64 a).sig * (unpack64 b).sig : Nat) : ℚ) * 2 ^ ((unpack64 a).exp + (unpack64 b).exp)) := by
  rw [sigs_mul_zpow, abs_mul, abs_val64, abs_val64, val64_eq, val64_eq b]
  cases a.msb <;> cases b.msb <;> simp

theorem fmul_isRne (ha : isFinite64 a = true) (hb : isFinite64 b = true) (h : val64 a * val64 b ≠ 0) :
    IsRne (val64 a * val64 b) (fmul a b) := by
  have hsig : (unpack64 a).sig * (unpack64 b).sig ≠ 0 := by
    obtain ⟨h1, h2⟩ := mul_ne_zero_iff.mp h
    exact Nat.mul_ne_zero ((sig_eq_zero_iff a).not.mpr h1) ((sig_eq_zero_iff b).not.mpr h2)
  rw [fmul_finite ha hb, fmulFinite_eq, val64_mul]
  exact round64_isRne _ hsig _

/-- Settles O49: a sum rounds its exact value once, and a difference is the sum with the sign flipped. -/
theorem sumIsRoundedToNearestEven : Obligations.SumIsRoundedToNearestEven := by
  intro a b ha hb
  refine ⟨fadd_isRne ha hb, fun h => ?_⟩
  rw [sub_eq_add_neg, ← val64_fneg] at h ⊢
  exact fadd_isRne ha ((isFinite64_fneg b).trans hb) h

/-- Settles O50: a product rounds its exact value once. -/
theorem productIsRoundedToNearestEven : Obligations.ProductIsRoundedToNearestEven :=
  fun _ _ ha hb h => fmul_isRne ha hb h

/-! ### Exact zeros -/

theorem fmul_of_product_zero (ha : isFinite64 a = true) (hb : isFinite64 b = true) (h : val64 a * val64 b = 0) :
    fmul a b = if (a.msb ^^ b.msb) then 0x8000000000000000#64 else 0 := by
  have hsig : (unpack64 a).sig * (unpack64 b).sig = 0 := by
    rw [Nat.mul_eq_zero, sig_eq_zero_iff, sig_eq_zero_iff]
    exact mul_eq_zero.mp h
  rw [fmul_finite ha hb, fmulFinite_eq, hsig, round64_zero]

theorem eq_negZero_iff (b : Word64) : b = 0x8000000000000000#64 ↔ b.msb = true ∧ (unpack64 b).sig = 0 := by
  constructor
  · rintro rfl
    decide
  · rintro ⟨hsign, hsig⟩
    rcases eq_zero_or_of_val64 ((sig_eq_zero_iff b).mp hsig) with rfl | h
    · exact absurd hsign (by decide)
    · exact h

theorem fadd_of_sum_zero (ha : isFinite64 a = true) (hb : isFinite64 b = true) (h : val64 a + val64 b = 0) :
    fadd a b = if a = 0x8000000000000000#64 ∧ b = 0x8000000000000000#64 then 0x8000000000000000#64 else 0 := by
  rw [fadd_finite ha hb, faddFinite_of_eq ((sumSig_eq_zero_iff a b).mpr h), round64_zero]
  refine if_congr ?_ rfl rfl
  rw [eq_negZero_iff, eq_negZero_iff]
  simp only [Bool.and_eq_true, beq_iff_eq]
  tauto

/-- A difference that is exactly zero is +0, but for `-0 - +0`. -/
theorem fsub_of_eq (ha : isFinite64 a = true) (hb : isFinite64 b = true) (h : val64 a = val64 b)
    (hz : ¬ (a = 0x8000000000000000#64 ∧ b = 0)) : fsub a b = 0 := by
  have hsum : val64 a + val64 (fneg b) = 0 := by rw [val64_fneg, h, add_neg_cancel]
  refine (fadd_of_sum_zero ha ((isFinite64_fneg b).trans hb) hsum).trans (if_neg fun ⟨h1, h2⟩ => hz ⟨h1, ?_⟩)
  have hflip := congrArg fneg h2
  simpa [fneg, BitVec.xor_assoc] using hflip

/-- Settles O51: the zero cases of `fmul` and `fadd`; a pattern is never -0 and +0 at once. -/
theorem signsOfZeroResults : Obligations.SignsOfZeroResults := by
  intro a b ha hb
  refine ⟨fmul_of_product_zero ha hb, fadd_of_sum_zero ha hb, fsub_of_eq ha ha rfl ?_⟩
  rintro ⟨rfl, h⟩
  exact absurd h (by decide)

/-! ### Rounding keeps bounds that are patterns -/

theorem IsRne.le_val64 (h : IsRne v r) (hr : isFinite64 r = true) (hc : isFinite64 c = true) (hle : val64 c ≤ v) :
    val64 c ≤ val64 r := by
  have hnear := h.nearest hr c hc
  rw [abs_of_nonpos (sub_nonpos.mpr hle)] at hnear
  linarith [neg_abs_le (val64 r - v)]

theorem IsRne.val64_le (h : IsRne v r) (hr : isFinite64 r = true) (hc : isFinite64 c = true) (hle : v ≤ val64 c) :
    val64 r ≤ val64 c := by
  have hnear := h.nearest hr c hc
  rw [abs_of_nonneg (sub_nonneg.mpr hle)] at hnear
  linarith [le_abs_self (val64 r - v)]

end Sys2Proof.Machine
end

section
/-! SUPPORT. EXPCON (42_exp2.md section 2): the scale factor as a value, its sign, and the stored form of the table. -/

namespace Sys2Proof.Machine

variable {cfg : Config} {e t : Word64} {k q : ℤ} {sb : Bool} {s : State} {p : Pending} {rest : List Pending}

theorem exec_expcon (h : s.requests = p :: rest) (hc : inContractExpcon s.cfg k = true)
    (hv : expconValue s.cfg k sb = some t) :
    exec (.expcon k sb) s = .next (s.answered p rest ⟨.ok, t, 0, 0⟩) := by
  simp only [exec, execExpcon, hc, if_true, hv]
  exact completeRead_some t h

/-- The contract bounds the quotient by `NE` (42_exp2.md R154). -/
theorem quotient_range (hc : inContractExpcon cfg k = true) : -1021 ≤ k / 2 ^ cfg.be ∧ k / 2 ^ cfg.be ≤ 1023 := by
  obtain ⟨hlow, hhigh⟩ := inContractExpcon_iff.mp hc
  exact expcon_quotient_range hlow hhigh

/-! ### The value of a scale factor -/

/-- A table entry is positive and in `[1, 2)` (00_scope.md R7). -/
theorem entry_fields (he : e.extractLsb' 52 12 = 0x3FF#12) : e.msb = false ∧ expField64 e = 1023 := by
  have hlt := e.isLt
  have htop := congrArg BitVec.toNat he
  rw [BitVec.extractLsb'_toNat, Nat.shiftRight_eq_div_pow, BitVec.toNat_ofNat] at htop
  rw [← Bool.not_eq_true, msb64_iff, expField64_eq]
  omega

theorem val64_entry (he : e.extractLsb' 52 12 = 0x3FF#12) : 1 ≤ val64 e ∧ val64 e < 2 := by
  obtain ⟨hsign, hexp⟩ := entry_fields he
  have hfrac : (fracField64 e : ℚ) < 2 ^ 52 := by exact_mod_cast fracField64_lt e
  have hfrac0 : (0 : ℚ) ≤ fracField64 e := by positivity
  rw [val64_normal (by omega), hsign, hexp]
  norm_num
  constructor <;> linarith

/-- Adding `q` to the exponent field multiplies the value by `2^q`. -/
theorem val64_scaleFactor (he : e.extractLsb' 52 12 = 0x3FF#12) (h1 : -1021 ≤ q) (h2 : q ≤ 1023) :
    val64 (scaleFactor e q sb) = (if sb then -1 else 1) * 2 ^ q * val64 e := by
  obtain ⟨hsign, hexp, hfrac⟩ := scaleFactor_fields sb he h1 h2
  obtain ⟨hesign, heexp⟩ := entry_fields he
  have hscale : 1023 + q - 1075 = q + (((1023 : Nat) : ℤ) - 1075) := by push_cast; ring
  rw [val64_normal (by omega), val64_normal (b := e) (by omega), hsign, hexp, hfrac, hesign, heexp, hscale,
    zpow_add₀ two_ne_zero]
  simp only [Bool.false_eq_true, if_false]
  ring

theorem isFinite64_scaleFactor (he : e.extractLsb' 52 12 = 0x3FF#12) (h1 : -1021 ≤ q) (h2 : q ≤ 1023) :
    isFinite64 (scaleFactor e q sb) = true := by
  have hexp := (scaleFactor_fields sb he h1 h2).2.1
  rw [isFinite64_iff]
  omega

/-- Settles O38: the fields and the value of the scale factor. -/
theorem expconResult : Obligations.ExpconResult := by
  intro k sb s p rest hw h hlow hhigh
  have hc : inContractExpcon s.cfg k = true := inContractExpcon_iff.mpr ⟨hlow, hhigh⟩
  obtain ⟨h1, h2⟩ := quotient_range hc
  obtain ⟨e, hmem, hread, hv⟩ := expconValue_eq hw k sb
  have he := Config.wf_e2t_entry hw hmem
  obtain ⟨hsign, hexp, hfrac⟩ := scaleFactor_fields sb he h1 h2
  exact ⟨e, _, hread, exec_expcon h hc hv, hsign, hexp, by omega, by omega, hfrac, val64_scaleFactor he h1 h2⟩

/-! ### The contracts of all seven -/

/-- Which operands are out of contract, instruction by instruction (60_exceptions.md R212). -/
theorem inContract_eq_false_iff_cases (cfg : Config) (i : Instr) : i.inContract cfg = false ↔
    (∃ ix, i = .rcplk ix ∧ inContractLog ix = false) ∨ (∃ ix eofs, i = .log2 ix eofs ∧ inContractLog ix = false) ∨
      (∃ k sb, i = .expcon k sb ∧ inContractExpcon cfg k = false) ∨
      (∃ xd sb, i = .exp2 xd sb ∧ inContractExp xd = false) := by
  cases i <;> simp [Instr.inContract]

/-- Settles O39: an instruction answers `OOC` or `OK` by its contract. -/
theorem outOfContractDrawsOoc : Obligations.OutOfContractDrawsOoc := by
  intro s p rest hw h
  refine ⟨fun k sb hk => ?_, fun xd sb hc => exec_of_outOfContract (i := .exp2 xd sb) h hc, fun i => ?_⟩
  · refine exec_of_outOfContract (i := .expcon k sb) h ?_
    rw [Instr.inContract, ← Bool.not_eq_true, inContractExpcon_iff]
    omega
  · rw [← inContract_eq_false_iff_cases]
    cases hc : i.inContract s.cfg with
    | false => exact ⟨_, exec_of_outOfContract h hc, by simp⟩
    | true =>
      obtain ⟨rsp, hexec, hok⟩ := exec_of_inContract hw h hc
      exact ⟨rsp, hexec, by simp [hok]⟩

/-! ### The stored form -/

theorem ofInt_two_pow (be : Nat) : BitVec.ofInt 64 (2 ^ be) = BitVec.twoPow 64 be := by
  have hcast : (2 : ℤ) ^ be = ((2 ^ be : Nat) : ℤ) := by push_cast; rfl
  apply BitVec.eq_of_toNat_eq
  rw [hcast, BitVec.ofInt_natCast, BitVec.toNat_ofNat, BitVec.toNat_twoPow]

/-- A quotient and a remainder, moved up as bit fields: the remainder's field cancels (42_exp2.md R153). -/
theorem storedForm_eq_scaleFactor (e : Word64) (k : ℤ) (sb : Bool) {be : Nat} (hbe : be ≤ 52) :
    (e - (BitVec.ofInt 64 (k % 2 ^ be) <<< (52 - be))) +
      ((BitVec.ofInt 64 k + ((BitVec.ofBool sb).setWidth 64 <<< (be + 11))) <<< (52 - be)) =
    scaleFactor e (k / 2 ^ be) sb := by
  have hk : BitVec.ofInt 64 k = BitVec.ofInt 64 (k / 2 ^ be) <<< be + BitVec.ofInt 64 (k % 2 ^ be) := by
    have hdiv : k = k / 2 ^ be * 2 ^ be + k % 2 ^ be := (Int.ediv_mul_add_emod k (2 ^ be)).symm
    conv_lhs => rw [hdiv, BitVec.ofInt_add, BitVec.ofInt_mul, ofInt_two_pow]
    rw [BitVec.shiftLeft_eq_mul_twoPow]
  have h52 : be + (52 - be) = 52 := by omega
  have h63 : be + 11 + (52 - be) = 63 := by omega
  rw [hk, BitVec.shiftLeft_add_distrib, BitVec.shiftLeft_add_distrib, ← BitVec.shiftLeft_add, ← BitVec.shiftLeft_add,
    h52, h63, scaleFactor, signBias]
  ring

/-- Settles O40, by the cancellation. -/
theorem storedFormGivesTheSameScaleFactor : Obligations.StoredFormGivesTheSameScaleFactor := by
  intro k sb s p rest hw h hc
  obtain ⟨e, -, hread, hv⟩ := expconValue_eq hw k sb
  refine ⟨e, hread, ?_⟩
  rw [storedForm_eq_scaleFactor e k sb ((Config.wf_be hw).trans (by norm_num))]
  exact exec_expcon h hc hv

/-! ### SignBias -/

theorem expField64_fneg (b : Word64) : expField64 (fneg b) = expField64 b := by
  have h := toNat_xor_sign64 b
  rw [fneg, expField64_eq, expField64_eq]
  omega

theorem fracField64_fneg (b : Word64) : fracField64 (fneg b) = fracField64 b := by
  have h := toNat_xor_sign64 b
  rw [fneg, fracField64_eq, fracField64_eq]
  omega

/-- The SignBias reaches only the sign bit of a scale factor in contract (42_exp2.md R154). -/
theorem scaleFactor_true (he : e.extractLsb' 52 12 = 0x3FF#12) (h1 : -1021 ≤ q) (h2 : q ≤ 1023) :
    scaleFactor e q true = fneg (scaleFactor e q false) := by
  obtain ⟨hsign, hexp, hfrac⟩ := scaleFactor_fields true he h1 h2
  obtain ⟨hsign', hexp', hfrac'⟩ := scaleFactor_fields false he h1 h2
  apply eq_of_msb_mag
  · rw [hsign, msb_fneg, hsign']
    rfl
  · rw [mag64_fneg, mag64_fields, mag64_fields, hfrac, hfrac']
    omega

end Sys2Proof.Machine
end

section
/-! SUPPORT. The split of EXP2 (42_exp2.md R155) is exact, and the additive trick (R157) gives the same one. -/

namespace Sys2Proof.Machine

variable {cfg : Config} {xd : Word64}

/-! ### Exact sums -/

/-- A sum that is a multiple of `2^e` by fewer than 54 bits is exact. -/
theorem fadd_exact {a b : Word64} (ha : isFinite64 a = true) (hb : isFinite64 b = true) {n : Int} {e : ℤ}
    (hn : n.natAbs < 2 ^ 53) (he : -1074 ≤ e) (he' : e ≤ 971) (h : val64 a + val64 b = n * 2 ^ e) :
    isFinite64 (fadd a b) = true ∧ val64 (fadd a b) = val64 a + val64 b := by
  by_cases hz : val64 a + val64 b = 0
  · rw [hz, fadd_of_sum_zero ha hb hz]
    split <;> decide +kernel
  · obtain ⟨hfin, hval⟩ := scaledIntToF64_val hn he he'
    rw [← h] at hval
    rw [fadd_eq_of_val ha hb hfin hval.symm (hval ▸ hz)]
    exact ⟨hfin, hval⟩

theorem fsub_exact {a b : Word64} (ha : isFinite64 a = true) (hb : isFinite64 b = true) {n : Int} {e : ℤ}
    (hn : n.natAbs < 2 ^ 53) (he : -1074 ≤ e) (he' : e ≤ 971) (h : val64 a - val64 b = n * 2 ^ e) :
    isFinite64 (fsub a b) = true ∧ val64 (fsub a b) = val64 a - val64 b := by
  rw [sub_eq_add_neg, ← val64_fneg] at h ⊢
  exact fadd_exact ha ((isFinite64_fneg b).trans hb) hn he he' h

/-! ### The split -/

/-- In contract `k` has at most 27 bits (42_exp2.md R154, R161). -/
theorem split_k_natAbs_le (hw : cfg.wf = true) (hc : inContractExp xd = true) :
    (split cfg xd).k.natAbs ≤ 1023 * 2 ^ 16 := by
  obtain ⟨hlow, hhigh⟩ := split_k_range cfg hc
  have hpow : (2 : ℤ) ^ cfg.be ≤ 2 ^ 16 := pow_le_pow_right₀ (by norm_num) (Config.wf_be hw)
  omega

/-- `kd` is exactly `k / NE` (42_exp2.md R155). -/
theorem split_kd (hw : cfg.wf = true) (hc : inContractExp xd = true) :
    isFinite64 (split cfg xd).kd = true ∧ val64 (split cfg xd).kd = ((split cfg xd).k : ℚ) / 2 ^ cfg.be := by
  have hbe := Config.wf_be hw
  have hk : (split cfg xd).k.natAbs < 2 ^ 53 := (split_k_natAbs_le hw hc).trans_lt (by norm_num)
  have h := scaledIntToF64_val hk (e := -(cfg.be : ℤ)) (by omega) (by omega)
  rwa [zpow_neg, zpow_natCast, ← div_eq_mul_inv] at h

theorem split_kd_of_zero (hk : (split cfg xd).k = 0) : (split cfg xd).kd = 0 :=
  (congrArg (scaledIntToF64 · (-(cfg.be : ℤ))) hk).trans (scaledIntToF64_zero _)

/-- The difference is within half a step of `1 / NE`. -/
theorem abs_sub_split_k_le (cfg : Config) (xd : Word64) :
    |val64 xd - ((split cfg xd).k : ℚ) / 2 ^ cfg.be| ≤ 1 / (2 * 2 ^ cfg.be) := by
  have hpos : (0 : ℚ) < 2 ^ cfg.be := by positivity
  have hnear := (split_k_nearest cfg xd).near
  have hscale : (2 : ℚ) ^ cfg.be * val64 xd - (split cfg xd).k =
      2 ^ cfg.be * (val64 xd - ((split cfg xd).k : ℚ) / 2 ^ cfg.be) := by field_simp
  rw [hscale, abs_mul, abs_of_pos hpos] at hnear
  rw [le_div_iff₀ (by positivity)]
  linarith

/-- A value that has all its bits at `2^(-be)` or above is a whole number of steps, and so is its own nearest. -/
theorem sub_split_k_eq_zero (h : -(cfg.be : ℤ) ≤ (unpack64 xd).exp) :
    val64 xd - ((split cfg xd).k : ℚ) / 2 ^ cfg.be = 0 := by
  have hint : (2 : ℚ) ^ cfg.be * val64 xd =
      (signedSig (unpack64 xd) * 2 ^ ((unpack64 xd).exp + cfg.be).toNat : ℤ) := by
    push_cast
    rw [val64_unpack, ← zpow_natCast, ← zpow_natCast, Int.toNat_of_nonneg (by omega), zpow_add₀ two_ne_zero]
    ring
  have hk := (split_k_nearest cfg xd).unique (hint ▸ IsNearestEven.of_int _)
  rw [hk, ← hint, mul_div_cancel_left₀ _ (by positivity), sub_self]

/-- An `xd` whose `k` is not 0 is at least half a step from 0. -/
theorem half_step_le_abs (hk : (split cfg xd).k ≠ 0) : 1 / (2 * 2 ^ cfg.be) ≤ |val64 xd| := by
  have hpos : (0 : ℚ) < 2 ^ cfg.be := by positivity
  have hone : (1 : ℚ) ≤ |((split cfg xd).k : ℚ)| := by exact_mod_cast Int.one_le_abs hk
  have hnear := (split_k_nearest cfg xd).near
  have htri := abs_sub_abs_le_abs_sub ((split cfg xd).k : ℚ) (2 ^ cfg.be * val64 xd)
  rw [abs_sub_comm, abs_mul, abs_of_pos hpos] at htri
  rw [div_le_iff₀ (by positivity)]
  linarith

/-- Below, the difference counts units of `xd`, and of no more bits than `xd` itself: either `k` is 0, or the
difference is at most half a step and `xd` at least that. -/
theorem exists_units_of_sub_split_k (h : (unpack64 xd).exp < -(cfg.be : ℤ)) : ∃ n : ℤ, n.natAbs < 2 ^ 53 ∧
    val64 xd - ((split cfg xd).k : ℚ) / 2 ^ cfg.be = n * 2 ^ (unpack64 xd).exp := by
  have hsigned := natAbs_signedSig (unpack64 xd)
  have hsig := unpack64_sig_lt xd
  by_cases hk : (split cfg xd).k = 0
  · exact ⟨signedSig (unpack64 xd), by omega, by rw [hk, Int.cast_zero, zero_div, sub_zero, val64_unpack]⟩
  obtain ⟨d, hd⟩ : ∃ d : Nat, -(cfg.be : ℤ) = d + (unpack64 xd).exp :=
    ⟨(-(cfg.be : ℤ) - (unpack64 xd).exp).toNat, by omega⟩
  have hunits : val64 xd - ((split cfg xd).k : ℚ) / 2 ^ cfg.be =
      (signedSig (unpack64 xd) - (split cfg xd).k * 2 ^ d : ℤ) * 2 ^ (unpack64 xd).exp := by
    rw [val64_unpack, div_eq_mul_inv, ← zpow_natCast (2 : ℚ) cfg.be, ← zpow_neg, hd, zpow_add₀ two_ne_zero, zpow_natCast]
    push_cast
    ring
  refine ⟨_, ?_, hunits⟩
  have hstep := abs_sub_split_k_le cfg xd
  have hhalf := half_step_le_abs hk
  have hsigq : ((unpack64 xd).sig : ℚ) < 2 ^ 53 := by exact_mod_cast hsig
  have hpos : (0 : ℚ) < 2 ^ (unpack64 xd).exp := by positivity
  rw [hunits, ← natAbs_mul_zpow] at hstep
  rw [← sig_mul_zpow] at hhalf
  have hlt := lt_of_mul_lt_mul_right ((hstep.trans hhalf).trans_lt (mul_lt_mul_of_pos_right hsigq hpos)) hpos.le
  exact_mod_cast hlt

theorem split_r_eq (cfg : Config) (xd : Word64) : (split cfg xd).r = fsub xd (split cfg xd).kd := rfl

/-- The residual of the split is exact. -/
theorem split_r (hw : cfg.wf = true) (hc : inContractExp xd = true) : isFinite64 (split cfg xd).r = true ∧
    val64 (split cfg xd).r = val64 xd - ((split cfg xd).k : ℚ) / 2 ^ cfg.be := by
  obtain ⟨hfin, -, -⟩ := (inContractExp_iff_val64 xd).mp hc
  obtain ⟨hkd, hkdval⟩ := split_kd hw hc
  rw [← hkdval, split_r_eq]
  rcases le_or_gt (-(cfg.be : ℤ)) (unpack64 xd).exp with hge | hlt
  · refine fsub_exact hfin hkd (n := 0) (e := 0) (by norm_num) (by norm_num) (by norm_num) ?_
    rw [hkdval, sub_split_k_eq_zero hge, Int.cast_zero, zero_mul]
  · obtain ⟨n, hn, hunits⟩ := exists_units_of_sub_split_k hlt
    refine fsub_exact hfin hkd hn (unpack64_exp_ge xd) (by omega) ?_
    rw [hkdval, hunits]

/-- The residual is at most half a step. -/
theorem abs_split_r_le (hw : cfg.wf = true) (hc : inContractExp xd = true) :
    |val64 (split cfg xd).r| ≤ 1 / (2 * 2 ^ cfg.be) := by
  rw [(split_r hw hc).2]
  exact abs_sub_split_k_le cfg xd

/-- Settles O42: `k` by its rounding, `kd` and `r` by exactness. -/
theorem splitIsExact : Obligations.SplitIsExact := by
  intro cfg xd hw hc
  obtain ⟨hkd, hkdval⟩ := split_kd hw hc
  obtain ⟨hr, hrval⟩ := split_r hw hc
  exact ⟨split_k_nearest cfg xd, hkd, hkdval, split_kd_of_zero, hr, hrval, abs_split_r_le hw hc⟩

/-! ### The additive trick -/

theorem IsNearestEven.add_even {x : ℚ} {k : ℤ} (h : IsNearestEven x k) {n : ℤ} (hn : n % 2 = 0) :
    IsNearestEven (x + n) (k + n) := by
  have hdist : x + n - ((k + n : ℤ) : ℚ) = x - k := by push_cast; ring
  refine ⟨by rw [hdist]; exact h.near, fun ht => ?_⟩
  rw [hdist] at ht
  have := h.tie ht
  omega

/-- `SHIFT = 1.5 * 2^52 / NE` (42_exp2.md R157). -/
def trickShift (cfg : Config) : Word64 := scaledIntToF64 3 (51 - cfg.be)

theorem trickShift_val (hw : cfg.wf = true) :
    isFinite64 (trickShift cfg) = true ∧ val64 (trickShift cfg) = 3 * 2 ^ (51 - (cfg.be : ℤ)) := by
  have hbe := Config.wf_be hw
  have h := scaledIntToF64_val (n := 3) (e := 51 - (cfg.be : ℤ)) (by norm_num) (by omega) (by omega)
  rwa [Int.cast_ofNat] at h

/-- The exact sum in steps of `1 / NE`. -/
theorem trickSum_steps (hw : cfg.wf = true) :
    (val64 xd + val64 (trickShift cfg)) * 2 ^ cfg.be = 2 ^ cfg.be * val64 xd + ((3 * 2 ^ 51 : ℤ) : ℚ) := by
  have h51 : (2 : ℚ) ^ (51 - (cfg.be : ℤ)) * 2 ^ cfg.be = 2 ^ 51 := by
    rw [← zpow_natCast (2 : ℚ) cfg.be, ← zpow_add₀ two_ne_zero, sub_add_cancel]
    norm_num
  rw [(trickShift_val hw).2, add_mul, mul_assoc 3, h51]
  push_cast
  ring

/-- `NE * xd` has magnitude far below `2^51`, so the sum stays in the binade of `SHIFT`. -/
theorem trickSum_steps_range (hw : cfg.wf = true) (hc : inContractExp xd = true) :
    (2 : ℚ) ^ (52 : ℤ) ≤ (val64 xd + val64 (trickShift cfg)) * 2 ^ cfg.be ∧
      (val64 xd + val64 (trickShift cfg)) * 2 ^ cfg.be < 2 ^ (53 : ℤ) := by
  obtain ⟨-, hlow, hhigh⟩ := (inContractExp_iff_val64 xd).mp hc
  have hpow : (2 : ℚ) ^ cfg.be ≤ 2 ^ 16 := pow_le_pow_right₀ (by norm_num) (Config.wf_be hw)
  have hpos : (0 : ℚ) < 2 ^ cfg.be := by positivity
  rw [trickSum_steps hw]
  norm_num
  constructor <;> nlinarith

/-- On the grid of `1 / NE`, which is that of `SHIFT`'s binade, the sum counts `1.5 * 2^52 + k` steps. -/
theorem trickSum_fields (hw : cfg.wf = true) (hc : inContractExp xd = true) {n : Nat}
    (hn : (n : ℤ) = 3 * 2 ^ 51 + (split cfg xd).k) : (fadd xd (trickShift cfg)).msb = false ∧
      (mag64 (fadd xd (trickShift cfg))).toNat = (1074 - cfg.be) * 2 ^ 52 + n := by
  obtain ⟨hfin, -, -⟩ := (inContractExp_iff_val64 xd).mp hc
  obtain ⟨hshift, -⟩ := trickShift_val hw
  have hbe := Config.wf_be hw
  have hk := split_k_natAbs_le hw hc
  obtain ⟨hsteps1, hsteps2⟩ := trickSum_steps_range hw hc
  have hpos : 0 < val64 xd + val64 (trickShift cfg) :=
    pos_of_mul_pos_left (lt_of_lt_of_le (by positivity) hsteps1) (by positivity)
  have hsum : 0 < sumSig xd (trickShift cfg) := by
    rw [val64_add] at hpos
    exact_mod_cast pos_of_mul_pos_left hpos (by positivity)
  have hnear : IsNearestEven ((val64 xd + val64 (trickShift cfg)) * 2 ^ cfg.be) n := by
    rw [trickSum_steps hw, hn, add_comm (3 * 2 ^ 51 : ℤ)]
    exact (split_k_nearest cfg xd).add_even (by norm_num)
  rw [fadd_finite hfin hshift, faddFinite_of_ne hsum.ne', msb_round64, toNat_mag_round64]
  refine ⟨decide_eq_false hsum.le.not_gt, ?_⟩
  have hexact : ((sumSig xd (trickShift cfg)).natAbs : ℚ) *
      2 ^ (min (unpack64 xd).exp (unpack64 (trickShift cfg)).exp - -(cfg.be : ℤ)) =
      (val64 xd + val64 (trickShift cfg)) * 2 ^ cfg.be := by
    rw [sub_neg_eq_add, zpow_add₀ two_ne_zero, ← mul_assoc, natAbs_mul_zpow, ← val64_add, abs_of_pos hpos, zpow_natCast]
  rw [← hexact] at hsteps1 hsteps2 hnear
  rw [roundMag_grid (Int.natAbs_ne_zero.mpr hsum.ne') (by omega) hsteps1 hsteps2 hnear,
    show infMag 52 11 = 2047 * 2 ^ 52 by decide]
  omega

/-- The sum exactly, and the `k` in its low bits. -/
theorem trickSum_val (hw : cfg.wf = true) (hc : inContractExp xd = true) :
    isFinite64 (fadd xd (trickShift cfg)) = true ∧
      val64 (fadd xd (trickShift cfg)) = ((split cfg xd).k : ℚ) / 2 ^ cfg.be + val64 (trickShift cfg) ∧
      (fadd xd (trickShift cfg)).extractLsb' 0 51 = BitVec.ofInt 51 (split cfg xd).k := by
  have hbe := Config.wf_be hw
  have hk := split_k_natAbs_le hw hc
  obtain ⟨n, hn⟩ : ∃ n : Nat, (n : ℤ) = 3 * 2 ^ 51 + (split cfg xd).k := ⟨(3 * 2 ^ 51 + (split cfg xd).k).toNat, by omega⟩
  obtain ⟨hsign, hmag⟩ := trickSum_fields hw hc hn
  refine ⟨?_, ?_, ?_⟩
  · rw [isFinite64_iff_mag, hmag, show infMag 52 11 = 2047 * 2 ^ 52 by decide]
    omega
  · have hnq : (n : ℚ) = 3 * 2 ^ 51 + (split cfg xd).k := by exact_mod_cast hn
    have hexp : (((1074 - cfg.be : Nat) : ℤ) - 1074) = -(cfg.be : ℤ) := by omega
    rw [val64_eq, hsign, hmag, magVal_grid _ _ (by omega) (by omega), hnq, hexp, (trickShift_val hw).2,
      sub_eq_add_neg 51, zpow_add₀ two_ne_zero, zpow_neg, zpow_natCast]
    norm_num
    ring
  · have hlow := toNat_mag64 (fadd xd (trickShift cfg))
    apply BitVec.eq_of_toNat_eq
    rw [BitVec.extractLsb'_toNat, BitVec.toNat_ofInt, Nat.shiftRight_zero]
    omega

/-- Settles O43: the sum holds `k` steps beside `SHIFT`, so taking `SHIFT` away leaves exactly `k / NE`. -/
theorem additiveTrickAgreesWithTheSplit : Obligations.AdditiveTrickAgreesWithTheSplit := by
  intro cfg xd hw hc
  obtain ⟨hfin, hval, hbits⟩ := trickSum_val hw hc
  obtain ⟨hshift, hshiftval⟩ := trickShift_val hw
  obtain ⟨hkd, hkdval⟩ := split_kd hw hc
  have hdiff : fsub (fadd xd (trickShift cfg)) (trickShift cfg) = (split cfg xd).kd := by
    by_cases hk : (split cfg xd).k = 0
    · rw [split_kd_of_zero hk]
      refine fsub_of_eq hfin hshift (by rw [hval, hk, Int.cast_zero, zero_div, zero_add]) ?_
      rintro ⟨-, hzero⟩
      rw [hzero] at hshiftval
      exact absurd (hshiftval.symm.trans (by decide +kernel)) (by positivity : 3 * (2 : ℚ) ^ (51 - (cfg.be : ℤ)) ≠ 0)
    · have hkq : ((split cfg xd).k : ℚ) ≠ 0 := by exact_mod_cast hk
      refine fadd_eq_of_val hfin ((isFinite64_fneg _).trans hshift) hkd ?_ (by rw [hkdval]; positivity)
      rw [val64_fneg, hval, hkdval, add_neg_cancel_right]
  exact ⟨hdiff, (congrArg (fsub xd) hdiff).trans (split_r_eq cfg xd).symm, hbits⟩

end Sys2Proof.Machine
end

section
/-! SUPPORT. EXP2 (42_exp2.md section 3): its result, the bounds of its polynomial, its exact cases, and the SignBias of
both operations of the exp2 path. -/

namespace Sys2Proof.Machine

variable {cfg : Config} {xd e t r a b c d : Word64} {k q : ℤ} {sb : Bool} {s : State} {p : Pending}
  {rest : List Pending}

/-! ### Results -/

theorem split_k_inContract (hc : inContractExp xd = true) : inContractExpcon cfg (split cfg xd).k = true :=
  inContractExpcon_iff.mpr (split_k_range cfg hc)

theorem exec_exp2 (h : s.requests = p :: rest) (hc : inContractExp xd = true) (hv : exp2Value s.cfg xd sb = some t) :
    exec (.exp2 xd sb) s = .next (s.answered p rest ⟨.ok, t, 0, 0⟩) := by
  simp only [exec, execExp2, hc, if_true, hv]
  exact completeRead_some t h

/-- The table has one entry for `k`, whatever the SignBias. -/
theorem exists_e2t_entry (hw : cfg.wf = true) (k : ℤ) :
    ∃ e, e.extractLsb' 52 12 = 0x3FF#12 ∧ cfg.e2t[(k % 2 ^ cfg.be).toNat]? = some e := by
  obtain ⟨e, hmem, hread, -⟩ := expconValue_eq hw k false
  exact ⟨e, Config.wf_e2t_entry hw hmem, hread⟩

theorem expconValue_of_read (hw : cfg.wf = true) (hread : cfg.e2t[(k % 2 ^ cfg.be).toNat]? = some e) (sb : Bool) :
    expconValue cfg k sb = some (scaleFactor e (k / 2 ^ cfg.be) sb) := by
  obtain ⟨e', -, hread', hv⟩ := expconValue_eq hw k sb
  rwa [Option.some.inj (hread.symm.trans hread')]

theorem exp2Value_of_read (hw : cfg.wf = true) (hread : cfg.e2t[((split cfg xd).k % 2 ^ cfg.be).toNat]? = some e)
    (sb : Bool) : exp2Value cfg xd sb =
      some (fmul (polyExp2 cfg (split cfg xd).r) (scaleFactor e ((split cfg xd).k / 2 ^ cfg.be) sb)) := by
  rw [exp2Value, expconValue_of_read hw hread, Option.map_some]

/-- Settles O44: the kernel's polynomial on the residual, times the scale factor of the nearest `k`. -/
theorem exp2Result : Obligations.Exp2Result := by
  intro xd sb s p rest hw h hc
  obtain ⟨e, -, hread⟩ := exists_e2t_entry hw (split s.cfg xd).k
  exact ⟨(split s.cfg xd).k, e, split_k_nearest s.cfg xd, hread, exec_exp2 h hc (exp2Value_of_read hw hread sb)⟩

/-! ### Bounds of the polynomial -/

theorem boundedBy_split_r (hw : cfg.wf = true) (hc : inContractExp xd = true) :
    BoundedBy (-((cfg.be : ℤ) + 1)) (split cfg xd).r := by
  refine ⟨(split_r hw hc).1, (abs_split_r_le hw hc).trans_eq ?_⟩
  rw [zpow_neg, zpow_add_one₀ two_ne_zero, zpow_natCast, one_div, mul_comm]

/-- The inner sum of the polynomial, for a residual of at most one half. -/
theorem boundedBy_inner (hw : cfg.wf = true) (hr : BoundedBy (-1) r) :
    BoundedBy 3 (fadd (fmul (memReadC cfg 0) r) (memReadC cfg 1)) := by
  have hC (j : Fin 3) : BoundedBy 2 (memReadC cfg j) := boundedBy_four (Config.wf_c hw j)
  exact fadd_boundedBy ((fmul_boundedBy (hC 0) hr (by norm_num) (by norm_num)).mono (by norm_num)) (hC 1) (by norm_num)
    (by norm_num)

/-- The polynomial is at most 8 in magnitude, for every well-formed configuration (42_exp2.md, the bounds). -/
theorem boundedBy_polyExp2 (hw : cfg.wf = true) (hr : BoundedBy (-1) r) : BoundedBy 3 (polyExp2 cfg r) := by
  have hlinear : BoundedBy (2 + -1) (fmul (memReadC cfg 2) r) :=
    fmul_boundedBy (boundedBy_four (Config.wf_c hw 2)) hr (by norm_num) (by norm_num)
  have hya : BoundedBy (1 + 1) (fadd (fmul (memReadC cfg 2) r) one64) :=
    fadd_boundedBy (hlinear.mono (by norm_num)) (boundedBy_one64.mono (by norm_num)) (by norm_num) (by norm_num)
  have hr2 : BoundedBy (-1 + -1) (fmul r r) := fmul_boundedBy hr hr (by norm_num) (by norm_num)
  have hsquare := fmul_boundedBy (boundedBy_inner hw hr) hr2 (by norm_num) (by norm_num)
  exact fadd_boundedBy (k := 2) (hsquare.mono (by norm_num)) (hya.mono (by norm_num)) (by norm_num) (by norm_num)

theorem isFinite64_polyExp2_split (hw : cfg.wf = true) (hc : inContractExp xd = true) :
    isFinite64 (polyExp2 cfg (split cfg xd).r) = true :=
  (boundedBy_polyExp2 hw ((boundedBy_split_r hw hc).mono (by omega))).1

/-- Settles O45: both factors of the last product are finite. -/
theorem exp2IsNeverNaN : Obligations.Exp2IsNeverNaN := by
  intro xd sb s p rest hw h hc
  obtain ⟨h1, h2⟩ := quotient_range (split_k_inContract (cfg := s.cfg) hc)
  obtain ⟨e, he, hread⟩ := exists_e2t_entry hw (split s.cfg xd).k
  exact ⟨_, exec_exp2 h hc (exp2Value_of_read hw hread sb),
    isNaN64_fmul (isFinite64_polyExp2_split hw hc) (isFinite64_scaleFactor he h1 h2)⟩

/-! ### SignBias -/

theorem unpack64_fneg (b : Word64) : (unpack64 (fneg b)).sig = (unpack64 b).sig ∧
    (unpack64 (fneg b)).exp = (unpack64 b).exp := by
  unfold unpack64
  rw [expField64_fneg, fracField64_fneg]
  split <;> exact ⟨rfl, rfl⟩

theorem round64_not (neg : Bool) (m : Nat) (e : ℤ) : round64 (!neg) m e = fneg (round64 neg m e) := by
  apply eq_of_msb_mag
  · rw [msb_fneg, msb_round64, msb_round64]
  · rw [mag64_fneg, toNat_mag_round64, toNat_mag_round64]

/-- Rounding to nearest does not see the sign. -/
theorem fmul_fneg_right (ha : isFinite64 a = true) (hb : isFinite64 b = true) :
    fmul a (fneg b) = fneg (fmul a b) := by
  obtain ⟨hsig, hexp⟩ := unpack64_fneg b
  rw [fmul_finite ha ((isFinite64_fneg b).trans hb), fmul_finite ha hb, fmulFinite_eq, fmulFinite_eq, hsig, hexp,
    msb_fneg, ← round64_not, Bool.xor_not]

/-- The SignBias reaches only the sign bit of the answer of EXP2 (42_exp2.md R156). -/
theorem exp2Value_true (hw : cfg.wf = true) (hc : inContractExp xd = true) :
    ∃ y, exp2Value cfg xd false = some y ∧ isNaN64 y = false ∧ exp2Value cfg xd true = some (fneg y) := by
  obtain ⟨h1, h2⟩ := quotient_range (split_k_inContract (cfg := cfg) hc)
  obtain ⟨e, he, hread⟩ := exists_e2t_entry hw (split cfg xd).k
  have hpoly := isFinite64_polyExp2_split hw hc
  have hscale := isFinite64_scaleFactor (sb := false) he h1 h2
  refine ⟨_, exp2Value_of_read hw hread false, isNaN64_fmul hpoly hscale, ?_⟩
  rw [exp2Value_of_read hw hread true, scaleFactor_true he h1 h2, fmul_fneg_right hpoly hscale]

/-- Settles O48: the sign of the scale factor, which the last product passes on. -/
theorem signBiasFlipsOnlyTheSign : Obligations.SignBiasFlipsOnlyTheSign := by
  intro s p rest hw h
  refine ⟨fun k hc => ?_, fun xd hc => ?_⟩
  · obtain ⟨h1, h2⟩ := quotient_range hc
    obtain ⟨e, he, hread⟩ := exists_e2t_entry hw k
    refine ⟨_, exec_expcon h hc (expconValue_of_read hw hread false), exec_expcon h hc ?_⟩
    rw [expconValue_of_read hw hread true, scaleFactor_true he h1 h2, fneg]
  · obtain ⟨y, hfalse, -, htrue⟩ := exp2Value_true hw hc
    exact ⟨y, exec_exp2 h hc hfalse, exec_exp2 h hc htrue⟩

/-! ### Exact multiples of `1 / NE` -/

theorem fmul_zero_right (ha : isFinite64 a = true) (hb : isFinite64 b = true) (hz : val64 b = 0) :
    isFinite64 (fmul a b) = true ∧ val64 (fmul a b) = 0 := by
  rw [fmul_of_product_zero ha hb (by rw [hz, mul_zero])]
  split <;> decide +kernel

/-- With a zero residual every term but the 1 is a zero, of either sign (42_exp2.md, corner cases). -/
theorem polyExp2_of_zero (hw : cfg.wf = true) (hr : isFinite64 r = true) (hz : val64 r = 0) :
    polyExp2 cfg r = one64 := by
  have hbound : BoundedBy (-1) r := ⟨hr, by rw [hz, abs_zero]; positivity⟩
  have hone : val64 one64 ≠ 0 := by rw [val64_one64]; exact one_ne_zero
  obtain ⟨hlin, hlinz⟩ := fmul_zero_right (boundedBy_four (Config.wf_c hw 2)).1 hr hz
  obtain ⟨hsq, hsqz⟩ := fmul_zero_right hr hr hz
  obtain ⟨hlast, hlastz⟩ := fmul_zero_right (boundedBy_inner hw hbound).1 hsq hsqz
  have honefin := boundedBy_one64.1
  rw [polyExp2, fadd_zero_left hlinz hlin honefin hone, fadd_zero_left hlastz hlast honefin hone]

/-- On `xd = k / NE` the split finds `k`, and leaves a zero. -/
theorem split_of_exact (hw : cfg.wf = true) (hc : inContractExp xd = true) (h : val64 xd = (k : ℚ) / 2 ^ cfg.be) :
    (split cfg xd).k = k ∧ val64 (split cfg xd).r = 0 := by
  have hscaled : (2 : ℚ) ^ cfg.be * val64 xd = k := by rw [h]; field_simp
  have hk : (split cfg xd).k = k := (split_k_nearest cfg xd).unique (hscaled ▸ IsNearestEven.of_int k)
  exact ⟨hk, by rw [(split_r hw hc).2, hk, h, sub_self]⟩

/-- There EXP2 multiplies the scale factor by 1. -/
theorem exp2Value_of_exact (hw : cfg.wf = true) (hc : inContractExp xd = true) (h : val64 xd = (k : ℚ) / 2 ^ cfg.be) :
    exp2Value cfg xd sb = expconValue cfg k sb := by
  obtain ⟨hk, hz⟩ := split_of_exact hw hc h
  obtain ⟨h1, h2⟩ := quotient_range (split_k_inContract (cfg := cfg) hc)
  obtain ⟨e, he, hread⟩ := exists_e2t_entry hw (split cfg xd).k
  rw [exp2Value_of_read hw hread, polyExp2_of_zero hw (split_r hw hc).1 hz,
    fmul_one_left (isFinite64_scaleFactor he h1 h2), ← hk, expconValue_of_read hw hread]

/-- Settles O47: equal values on operands that are both in contract. -/
theorem exp2OfExactMultipleIsExpcon : Obligations.Exp2OfExactMultipleIsExpcon := by
  intro xd k sb s hw hc h
  have hk : inContractExpcon s.cfg k = true := (split_of_exact hw hc h).1 ▸ split_k_inContract hc
  simp only [exec, execExp2, execExpcon, hc, hk, if_true, exp2Value_of_exact hw hc h]

/-- Settles O58: an integer is the multiple `n * NE`, whose scale factor reads entry 0. -/
theorem exp2OfIntegerIsThePowerOfTwo : Obligations.Exp2OfIntegerIsThePowerOfTwo := by
  intro xd n sb s p rest hw hentry h hc hn
  have hpos : (0 : ℤ) < 2 ^ s.cfg.be := by positivity
  have hval : val64 xd = ((n * 2 ^ s.cfg.be : ℤ) : ℚ) / 2 ^ s.cfg.be := by rw [hn]; push_cast; field_simp
  have hread : s.cfg.e2t[((n * 2 ^ s.cfg.be) % 2 ^ s.cfg.be).toNat]? = some one64 := by
    rwa [Int.mul_emod_left]
  have hv := exp2Value_of_exact (sb := sb) hw hc hval
  rw [expconValue_of_read hw hread, Int.mul_ediv_cancel _ hpos.ne'] at hv
  obtain ⟨-, hlow, hhigh⟩ := (inContractExp_iff_val64 xd).mp hc
  rw [hn] at hlow hhigh
  have h1 : -1021 ≤ n := by exact_mod_cast hlow
  have h2 : n ≤ 1023 := by exact_mod_cast hhigh
  have hone : one64.extractLsb' 52 12 = 0x3FF#12 := by decide
  refine ⟨_, exec_exp2 h hc hv, (scaleFactor_fields sb hone h1 h2).1, isFinite64_scaleFactor hone h1 h2, ?_⟩
  rw [val64_scaleFactor hone h1 h2, val64_one64, mul_one]

/-! ### RC0 -/

/-- A rounded sum stays between patterns that the exact sum is between. -/
theorem fadd_between {k : ℤ} (ha : BoundedBy k a) (hb : BoundedBy k b) (hk : -1023 ≤ k) (hk' : k ≤ 1022)
    (hc : isFinite64 c = true) (hd : isFinite64 d = true) (hpos : 0 < val64 c) (hlow : val64 c ≤ val64 a + val64 b)
    (hhigh : val64 a + val64 b ≤ val64 d) : val64 c ≤ val64 (fadd a b) ∧ val64 (fadd a b) ≤ val64 d := by
  have hfin := (fadd_boundedBy ha hb hk hk').1
  have hrne := fadd_isRne ha.1 hb.1 (by linarith)
  exact ⟨hrne.le_val64 hfin hc hlow, hrne.val64_le hfin hd hhigh⟩

theorem boundedBy_rc0_c (j : Fin 3) : BoundedBy 0 (memReadC rc0 j) := by
  refine ⟨?_, ?_⟩
  · revert j; decide
  · revert j; decide +kernel

/-- The last two terms of the polynomial: the residual is at most `1 / 64`, the coefficient below 1. -/
theorem linearTerms_rc0_range (hr : BoundedBy (-6) r) :
    3 / 4 ≤ val64 (fadd (fmul (memReadC rc0 2) r) one64) ∧ val64 (fadd (fmul (memReadC rc0 2) r) one64) ≤ 5 / 4 := by
  have hc : val64 0x3FE8000000000000#64 = 3 / 4 := by decide +kernel
  have hd : val64 0x3FF4000000000000#64 = 5 / 4 := by decide +kernel
  have hlin : BoundedBy (0 + -6) (fmul (memReadC rc0 2) r) :=
    fmul_boundedBy (boundedBy_rc0_c 2) hr (by norm_num) (by norm_num)
  obtain ⟨h1, h2⟩ := abs_le.mp hlin.2
  norm_num at h1 h2
  rw [← hc, ← hd]
  refine fadd_between (hlin.mono (by norm_num)) boundedBy_one64 (by norm_num) (by norm_num) (by decide) (by decide) ?_ ?_ ?_
  · rw [hc]; norm_num
  · rw [hc, val64_one64]; linarith
  · rw [hd, val64_one64]; linarith

/-- Under RC0 the terms of higher degree are at most `2^-11`, so the polynomial is near 1. -/
theorem polyExp2_rc0_range (hr : BoundedBy (-6) r) :
    1 / 2 ≤ val64 (polyExp2 rc0 r) ∧ val64 (polyExp2 rc0 r) ≤ 3 / 2 := by
  have hc : val64 0x3FE0000000000000#64 = 1 / 2 := by decide +kernel
  have hd : val64 0x3FF8000000000000#64 = 3 / 2 := by decide +kernel
  have hlin := fmul_boundedBy (boundedBy_rc0_c 2) hr (by norm_num) (by norm_num)
  have hya : BoundedBy (0 + 1) (fadd (fmul (memReadC rc0 2) r) one64) :=
    fadd_boundedBy (hlin.mono (by norm_num)) boundedBy_one64 (by norm_num) (by norm_num)
  have hz : BoundedBy (0 + 1) (fadd (fmul (memReadC rc0 0) r) (memReadC rc0 1)) :=
    fadd_boundedBy ((fmul_boundedBy (boundedBy_rc0_c 0) hr (by norm_num) (by norm_num)).mono (by norm_num))
      (boundedBy_rc0_c 1) (by norm_num) (by norm_num)
  have hsq := fmul_boundedBy hz (fmul_boundedBy hr hr (by norm_num) (by norm_num)) (by norm_num) (by norm_num)
  obtain ⟨h1, h2⟩ := abs_le.mp hsq.2
  norm_num at h1 h2
  obtain ⟨hya1, hya2⟩ := linearTerms_rc0_range hr
  rw [← hc, ← hd]
  refine fadd_between (k := 1) (hsq.mono (by norm_num)) (hya.mono (by norm_num)) (by norm_num) (by norm_num) (by decide)
    (by decide) ?_ ?_ ?_
  · rw [hc]; norm_num
  · rw [hc]; linarith
  · rw [hd]; linarith

theorem abs_val64_scaleFactor (he : e.extractLsb' 52 12 = 0x3FF#12) (h1 : -1021 ≤ q) (h2 : q ≤ 1023) :
    |val64 (scaleFactor e q sb)| = 2 ^ q * val64 e := by
  rw [val64_scaleFactor he h1 h2, mul_assoc, abs_signed sb]
  exact mul_nonneg (by positivity) (by linarith [(val64_entry he).1])

/-- The greatest `k` in contract reads entry 0, which is 1 in RC0, so no scale factor exceeds `2^1023`. -/
theorem abs_scaleFactor_rc0_le (hc : inContractExpcon rc0 k = true) (he : e.extractLsb' 52 12 = 0x3FF#12)
    (hread : rc0.e2t[(k % 2 ^ rc0.be).toNat]? = some e) :
    |val64 (scaleFactor e (k / 2 ^ rc0.be) sb)| ≤ 2 ^ (1023 : ℤ) := by
  obtain ⟨h1, h2⟩ := quotient_range hc
  have hk := (inContractExpcon_iff.mp hc).2
  rw [abs_val64_scaleFactor he h1 h2]
  rw [show rc0.be = 5 from rfl] at *
  rcases Int.lt_or_eq_of_le h2 with hlt | heq
  · calc (2 : ℚ) ^ (k / 2 ^ 5) * val64 e ≤ 2 ^ (k / 2 ^ 5) * 2 := by gcongr; exact (val64_entry he).2.le
      _ = 2 ^ (k / 2 ^ 5 + 1) := (zpow_add_one₀ two_ne_zero _).symm
      _ ≤ 2 ^ (1023 : ℤ) := zpow_le_zpow_right₀ (by norm_num) (by omega)
  · have hmod : (k % 2 ^ 5).toNat = 0 := by omega
    rw [hmod] at hread
    have hone : e = one64 := (Option.some.inj hread).symm
    rw [heq, hone, val64_one64, mul_one]

/-- A product between the least normal number and `1.5 * 2^1023` is normal. -/
theorem fmul_normal (ha : isFinite64 a = true) (hb : isFinite64 b = true)
    (hlow : (2 : ℚ) ^ (-1022 : ℤ) ≤ |val64 a * val64 b|) (hhigh : |val64 a * val64 b| ≤ 3 / 2 * 2 ^ (1023 : ℤ)) :
    1 ≤ expField64 (fmul a b) ∧ expField64 (fmul a b) ≤ 2046 := by
  have hmax : magVal (2046 * 2 ^ 52 + 2 ^ 51) = 3 / 2 * 2 ^ (1023 : ℤ) := by
    rw [magVal_normal (by norm_num) (by norm_num), show (1023 : ℤ) = 52 + (((2046 : Nat) : ℤ) - 1075) by norm_num,
      zpow_add₀ two_ne_zero]
    generalize (2 : ℚ) ^ (((2046 : Nat) : ℤ) - 1075) = u
    norm_num
    ring
  have hmin : magVal (2 ^ 52) = 2 ^ (-1022 : ℤ) := magVal_two_pow (-1022) le_rfl
  have hmag := mag64_fields (fmul a b)
  have hfrac := fracField64_lt (fmul a b)
  rw [fmul_finite ha hb, fmulFinite_eq, toNat_mag_round64, ← fmulFinite_eq, ← fmul_finite ha hb] at hmag
  rw [← sigs_mul_zpow] at hlow hhigh
  have h1 := le_roundMag_of_le (hmin.trans_le hlow) (by decide)
  have h2 := roundMag_le_of_le (hhigh.trans_eq hmax.symm)
  omega

theorem msb_eq_false_of_pos (h : 0 < val64 b) : b.msb = false := by
  rw [← Bool.not_eq_true]
  intro hm
  rw [val64_eq, hm, if_pos rfl] at h
  linarith [magVal_nonneg (mag64 b).toNat]

/-- Settles O46: the polynomial is between 1/2 and 3/2, and the scale factor between `2^-1021` and `2^1023`. -/
theorem exp2UnderRc0IsNormal : Obligations.Exp2UnderRc0IsNormal := by
  intro xd sb s p rest hcfg h hc
  have hw := Config.rc0_wf
  have hkc := split_k_inContract (cfg := rc0) hc
  obtain ⟨h1, h2⟩ := quotient_range hkc
  obtain ⟨e, he, hread⟩ := exists_e2t_entry hw (split rc0 xd).k
  have hpoly := isFinite64_polyExp2_split hw hc
  obtain ⟨hlow, hhigh⟩ := polyExp2_rc0_range ((boundedBy_split_r hw hc).mono (by decide))
  have hscale := isFinite64_scaleFactor (sb := sb) he h1 h2
  have hmax := abs_scaleFactor_rc0_le (sb := sb) hkc he hread
  have hmin : (2 : ℚ) ^ (-1021 : ℤ) ≤ |val64 (scaleFactor e ((split rc0 xd).k / 2 ^ rc0.be) sb)| := by
    rw [abs_val64_scaleFactor he h1 h2]
    refine (zpow_le_zpow_right₀ (by norm_num) h1).trans (le_mul_of_one_le_right (by positivity) (val64_entry he).1)
  have hpos : 0 < val64 (polyExp2 rc0 (split rc0 xd).r) := by linarith
  have hnormal := fmul_normal hpoly hscale
    (by
      rw [abs_mul, abs_of_pos hpos, show (-1022 : ℤ) = -1 + -1021 by norm_num, zpow_add₀ two_ne_zero]
      exact mul_le_mul (by norm_num; linarith) hmin (by positivity) hpos.le)
    (by
      rw [abs_mul, abs_of_pos hpos]
      exact mul_le_mul hhigh hmax (abs_nonneg _) (by norm_num))
  have hv := exp2Value_of_read hw hread sb
  rw [← hcfg] at hv
  refine ⟨_, exec_exp2 h hc hv, ?_⟩
  rw [hcfg]
  refine ⟨?_, hnormal⟩
  rw [fmul_finite hpoly hscale, fmulFinite_eq, msb_round64, msb_eq_false_of_pos hpos,
    (scaleFactor_fields sb he h1 h2).1, Bool.false_xor]

end Sys2Proof.Machine
end

section
/-! SUPPORT. The host with the block (45_host_dispatcher.md; log 12): what the block answers to the host's requests, the
three paths of `power`, and the statements about each. -/

namespace Sys2Proof.Machine

variable {cfg : Config} {h : HostParams} {ix iy : Word32} {i : Instr} {y : Word64} {sb : Bool}

/-! ### What the host is answered -/

/-- The host takes `r0` of what the instruction answers with `OK` in the block that holds its request alone. -/
theorem askBlock_of_exec {rsp : Response} (hw : cfg.wf = true) (hi : i.wf = true)
    (hexec : exec i (State.lone cfg (encode i)) =
      .next ((State.lone cfg (encode i)).answered ⟨0, encode i⟩ [] rsp)) :
    askBlock cfg i = if rsp.status = .ok then some rsp.r0 else none := by
  have hd : Decodes (encode i) i := .of_decode (decodeOfEncodeIsTheInstruction i hi)
  have hstep : step (State.lone cfg (encode i)) = _ :=
    (step_of_decodes (s := State.lone cfg (encode i)) hw rfl rfl (Config.wf_nports hw) hd).trans hexec
  have hanswer : blockAnswer cfg (encode i) = some rsp := by
    rw [blockAnswer, hstep]
    rfl
  rw [askBlock, hanswer]

theorem askBlock_zinfnan (hw : cfg.wf = true) (ix : Word32) :
    askBlock cfg (.zinfnan ix) = some (predicateCode (zeroInfNan ix)) :=
  askBlock_of_exec hw rfl (exec_zinfnan rfl)

theorem askBlock_chkint (hw : cfg.wf = true) (iy : Word32) :
    askBlock cfg (.chkint iy) = some (integralityCode (checkInteger iy)) :=
  askBlock_of_exec hw rfl (exec_chkint rfl)

theorem askBlock_exp2 (hw : cfg.wf = true) {xd : Word64} (hc : inContractExp xd = true)
    (hv : exp2Value cfg xd sb = some y) : askBlock cfg (.exp2 xd sb) = some y :=
  askBlock_of_exec hw rfl (exec_exp2 rfl hc hv)

/-- On an operand in contract the host gets a value. -/
theorem exists_askBlock (hw : cfg.wf = true) (hi : i.wf = true) (hc : i.inContract cfg = true) :
    ∃ y, askBlock cfg i = some y := by
  obtain ⟨rsp, hexec, hok⟩ := exec_of_inContract (s := State.lone cfg (encode i)) hw rfl hc
  exact ⟨_, (askBlock_of_exec hw hi hexec).trans (if_pos hok)⟩

/-- Out of contract the host gets none. -/
theorem askBlock_of_outOfContract (hw : cfg.wf = true) (hi : i.wf = true) (hc : i.inContract cfg = false) :
    askBlock cfg i = none :=
  askBlock_of_exec hw hi (exec_of_outOfContract (s := State.lone cfg (encode i)) rfl hc)

/-! ### The three paths of `power` -/

theorem powHost_of_ySpecial (hw : cfg.wf = true) (hy : zeroInfNan iy = true) :
    powHost cfg h ix iy = some ⟨hostStep1 ix iy, none⟩ := by
  simp only [powHost, askBlock_zinfnan hw, Option.bind_some, predicateCode_eq_one_iff, hy, if_true]

theorem powHost_of_xSpecial (hw : cfg.wf = true) (hy : zeroInfNan iy = false) (hx : zeroInfNan ix = true) :
    powHost cfg h ix iy = hostSpecialX cfg ix iy := by
  simp only [powHost, askBlock_zinfnan hw, Option.bind_some, predicateCode_eq_one_iff, hy, hx, Bool.false_eq_true, if_true,
    if_false]

theorem powHost_of_regular (hw : cfg.wf = true) (hy : zeroInfNan iy = false) (hx : zeroInfNan ix = false) :
    powHost cfg h ix iy = hostStep3 cfg h ix iy := by
  simp only [powHost, askBlock_zinfnan hw, Option.bind_some, predicateCode_eq_one_iff, hy, hx, Bool.false_eq_true,
    if_false]

/-- The regular operands are the finite ones other than the zeros. -/
theorem zeroInfNan_eq_false_iff (b : Word32) : zeroInfNan b = false ↔ isFinite32 b = true ∧ mag32 b ≠ 0 := by
  rw [← Bool.not_eq_true, zeroInfNan_iff, not_or, isFinite32_iff]
  exact and_congr_right' (mag32_eq_zero_iff b).not.symm

theorem zeroInfNan_of_mag_zero (hz : mag32 iy = 0) : zeroInfNan iy = true :=
  (zeroInfNan_iff iy).mpr (.inr ((mag32_eq_zero_iff iy).mp hz))

/-! ### Zero and one -/

/-- Settles O54: step 1 answers it before it looks at `x` (45_host_dispatcher.md R185 (a)). -/
theorem powerOfYZeroIsOne : Obligations.PowerOfYZeroIsOne := by
  intro cfg h ix iy hw hz hs
  rw [powHost_of_ySpecial hw (zeroInfNan_of_mag_zero hz), hostStep1, if_pos hz, hs]
  rfl

theorem hostStep1_one (hs : isSignalling32 iy = false) : hostStep1 one32 iy = one32 := by
  have hone : isSignalling32 one32 = false := by decide
  simp [hostStep1, hs, hone]

theorem log2_rc0_one : askBlock rc0 (.log2 one32 0) = some 0 := by decide +kernel

/-- A zero `ylogx` of either sign is raised to 1 under RC0. -/
theorem hostFinish_rc0_zero {z : Word64} (hz : z = 0 ∨ z = 0x8000000000000000#64) :
    hostFinish rc0 h z false = some ⟨one32, none⟩ := by
  have hfar : hostFarFromZero z = false := by rcases hz with rfl | rfl <;> decide
  have hexp : askBlock rc0 (.exp2 z false) = some one64 := by rcases hz with rfl | rfl <;> decide +kernel
  have hnarrow : narrow one64 = one32 := by decide +kernel
  simp [hostFinish, hfar, hexp, hnarrow]

/-- Settles O55: step 1 answers for a special `y`; for any other the logarithm of 1 is 0. -/
theorem powerOfXOneIsOne : Obligations.PowerOfXOneIsOne := by
  intro h iy hs
  have hw := Config.rc0_wf
  change powHost rc0 h one32 iy = some ⟨one32, none⟩
  cases hy : zeroInfNan iy with
  | true => rw [powHost_of_ySpecial hw hy, hostStep1_one hs]
  | false =>
    obtain ⟨hfin, -⟩ := (zeroInfNan_eq_false_iff iy).mp hy
    obtain ⟨-, hzero⟩ := fmul_zero_right (val64_f32ToF64 hfin).1 (b := 0) (by decide) (by decide +kernel)
    have hregular : hostStep3 rc0 h one32 iy = hostCommon rc0 h (mag32 one32) iy false := rfl
    have hnormal : hostNormalise (mag32 one32) = (one32, 0) := by decide
    rw [powHost_of_regular hw hy (by decide), hregular, hostCommon, hnormal, log2_rc0_one, Option.bind_some]
    exact hostFinish_rc0_zero (eq_zero_or_of_val64 hzero)

/-! ### Negative bases -/

theorem checkInteger_of_not_int (hnz : mag32 iy ≠ 0) (hn : ∀ n : ℤ, val32 iy ≠ n) : checkInteger iy = .notInteger := by
  have hholds := checkInteger_holds hnz
  cases hc : checkInteger iy with
  | notInteger => rfl
  | oddInteger | evenInteger =>
    rw [hc] at hholds
    obtain ⟨n, hval, -⟩ := hholds
    exact absurd hval (hn n)

theorem checkInteger_of_int (hnz : mag32 iy ≠ 0) {n : ℤ} (hn : val32 iy = n) :
    checkInteger iy = if n % 2 = 1 then .oddInteger else .evenInteger := by
  have hholds := checkInteger_holds hnz
  cases hc : checkInteger iy with
  | notInteger =>
    rw [hc] at hholds
    exact absurd hn (hholds n)
  | oddInteger =>
    rw [hc] at hholds
    obtain ⟨m, hval, hm⟩ := hholds
    rw [if_pos (by rwa [← Int.cast_injective (hval.symm.trans hn)])]
  | evenInteger =>
    rw [hc] at hholds
    obtain ⟨m, hval, hm⟩ := hholds
    rw [if_neg (by rw [← Int.cast_injective (hval.symm.trans hn), hm]; decide)]

theorem val32_of_mag_zero (hz : mag32 iy = 0) : val32 iy = 0 := by
  obtain ⟨hexp, hfrac⟩ := (mag32_eq_zero_iff iy).mp hz
  simp [val32, Unpacked.val, unpack32, hexp, hfrac]

/-- The exponent field of the host's NaN is all ones, and its quiet bit is set. -/
theorem quietNaN32_fields (a b : Word32) : expField32 (quietNaN32 a b) = 255 ∧ (quietNaN32 a b).getLsbD 22 = true := by
  have hexp : (quietNaN32 a b).extractLsb' 23 8 = 0xFF#8 := by
    ext j hj; simp [quietNaN32]; grind
  exact ⟨by rw [expField32, hexp]; rfl, by simp [quietNaN32]; grind⟩

theorem isNaN32_quietNaN32 (a b : Word32) : isNaN32 (quietNaN32 a b) = true := by
  obtain ⟨hexp, hquiet⟩ := quietNaN32_fields a b
  have hfrac : fracField32 (quietNaN32 a b) ≠ 0 := by
    rw [fracField32_eq]
    intro hz
    have hbit := congrArg (Nat.testBit · 22) hz
    simp only [Nat.testBit_mod_two_pow, Nat.zero_testBit] at hbit
    simp [BitVec.getLsbD] at hquiet
    simp [hquiet] at hbit
  simp [isNaN32, hexp, hfrac]

theorem isSignalling32_quietNaN32 (a b : Word32) : isSignalling32 (quietNaN32 a b) = false := by
  simp [isSignalling32, (quietNaN32_fields a b).2]

/-- Settles O56: check-integer answers not-integer, and the host stops there. -/
theorem negativeBaseNeedsAnInteger : Obligations.NegativeBaseNeedsAnInteger := by
  intro cfg h ix iy hw hfx hneg hx hfy hn
  have hy : mag32 iy ≠ 0 := fun hz => hn 0 (by rw [val32_of_mag_zero hz, Int.cast_zero])
  refine ⟨quietNaN32 ix iy, ?_, isNaN32_quietNaN32 ix iy, isSignalling32_quietNaN32 ix iy⟩
  rw [powHost_of_regular hw ((zeroInfNan_eq_false_iff iy).mpr ⟨hfy, hy⟩) ((zeroInfNan_eq_false_iff ix).mpr ⟨hfx, hx⟩),
    hostStep3, if_pos hneg, askBlock_chkint hw, checkInteger_of_not_int hy hn]
  rfl

/-! ### Odd and even powers -/

/-- Flipping a leading sign bit. -/
theorem append_not_sign (neg : Bool) (v : BitVec 31) :
    (BitVec.ofBool (!neg) ++ v : BitVec (1 + 31)) = (BitVec.ofBool neg ++ v) ^^^ 0x80000000#32 := by
  have hsign : (0x80000000#32) = (1#1 ++ 0#31 : BitVec (1 + 31)) := by decide
  rw [hsign, BitVec.xor_append, BitVec.xor_zero]
  cases neg <;> rfl

theorem isInf64_fneg (b : Word64) : isInf64 (fneg b) = isInf64 b := by
  rw [Bool.eq_iff_iff, isInf64_iff, isInf64_iff, mag64_fneg]

/-- Narrowing a number passes its sign on (45_host_dispatcher.md R194). -/
theorem narrow_fneg (hn : isNaN64 y = false) : narrow (fneg y) = narrow y ^^^ 0x80000000#32 := by
  obtain ⟨hsig, hexp⟩ := unpack64_fneg y
  rw [narrow, narrow, isNaN64_fneg, isInf64_fneg, hn, if_neg Bool.false_ne_true, if_neg Bool.false_ne_true, hsig, hexp,
    unpack64_neg, unpack64_neg, msb_fneg]
  split
  · exact append_not_sign _ _
  · exact append_not_sign _ _

theorem inContractExp_of_askBlock (hw : cfg.wf = true) {xd : Word64} (hy : askBlock cfg (.exp2 xd sb) = some y) :
    inContractExp xd = true := by
  rw [← Bool.not_eq_false]
  intro hc
  rw [askBlock_of_outOfContract (i := .exp2 xd sb) hw rfl hc] at hy
  cases hy

/-- Asked for the same power with the other SignBias, the block answers with the other sign. -/
theorem askBlock_exp2_true (hw : cfg.wf = true) {xd : Word64} (hy : askBlock cfg (.exp2 xd false) = some y) :
    isNaN64 y = false ∧ askBlock cfg (.exp2 xd true) = some (fneg y) := by
  have hc := inContractExp_of_askBlock hw hy
  obtain ⟨y', hfalse, hnan, htrue⟩ := exp2Value_true hw hc
  rw [askBlock_exp2 hw hc hfalse] at hy
  obtain rfl := Option.some.inj hy
  exact ⟨hnan, askBlock_exp2 hw hc htrue⟩

/-- The SignBias flips the sign of what the common path ends with, and no condition. -/
theorem hostFinish_true {r : HostResult} {z : Word64} (hw : cfg.wf = true) (hr : hostFinish cfg h z false = some r) :
    hostFinish cfg h z true = some ⟨r.bits ^^^ 0x80000000#32, r.condition⟩ := by
  simp only [hostFinish] at hr ⊢
  split at hr
  next hover =>
    obtain rfl := Option.some.inj hr
    rw [if_pos hover]
    rfl
  next hover =>
    rw [if_neg hover]
    split at hr
    next hunder =>
      obtain rfl := Option.some.inj hr
      rw [if_pos hunder]
      rfl
    next hunder =>
      obtain ⟨y, hy, rfl⟩ := Option.map_eq_some_iff.mp hr
      obtain ⟨hnan, htrue⟩ := askBlock_exp2_true hw hy
      rw [if_neg hunder, htrue, Option.map_some, narrow_fneg hnan]

theorem hostCommon_true {r : HostResult} {m : Word32} (hw : cfg.wf = true) (hr : hostCommon cfg h m iy false = some r) :
    hostCommon cfg h m iy true = some ⟨r.bits ^^^ 0x80000000#32, r.condition⟩ := by
  obtain ⟨logx, hlog, hfinish⟩ := Option.bind_eq_some_iff.mp hr
  exact Option.bind_eq_some_iff.mpr ⟨logx, hlog, hostFinish_true hw hfinish⟩

theorem mag32_xor_sign (b : Word32) : mag32 (b ^^^ 0x80000000#32) = mag32 b := by
  apply BitVec.eq_of_toNat_eq
  rw [mag32_fields, mag32_fields, expField32_xor_sign, fracField32_xor_sign]

/-- Settles O57: both bases take the common path with one magnitude; the parity of `y` is the SignBias. -/
theorem negatedBaseFlipsTheSignOfOddPowers : Obligations.NegatedBaseFlipsTheSignOfOddPowers := by
  intro cfg h ix iy n r hw hfx hx hpos hfy hn hn0 hr
  have hy : mag32 iy ≠ 0 := fun hz => hn0 (by rw [val32_of_mag_zero hz] at hn; exact_mod_cast hn.symm)
  have hyreg : zeroInfNan iy = false := (zeroInfNan_eq_false_iff iy).mpr ⟨hfy, hy⟩
  have hxreg : zeroInfNan ix = false := (zeroInfNan_eq_false_iff ix).mpr ⟨hfx, hx⟩
  have hneg : (ix ^^^ 0x80000000#32).msb = true := by rw [msb_xor_sign32, hpos]; rfl
  rw [powHost_of_regular hw hyreg hxreg, hostStep3, if_neg (by rw [hpos]; exact Bool.false_ne_true)] at hr
  rw [powHost_of_regular hw hyreg (zeroInfNan_xor_sign ix ▸ hxreg), hostStep3, if_pos hneg, askBlock_chkint hw,
    checkInteger_of_int hy hn, mag32_xor_sign, Option.bind_some]
  by_cases hodd : n % 2 = 1
  · simp only [if_pos hodd]
    exact hostCommon_true hw hr
  · simp only [if_neg hodd]
    exact hr

/-! ### Totality -/

/-- A positive significand of a subnormal, scaled by `2^23`, is a normal number: its leading bit moves to bit 23. -/
theorem inContractLog_normalised {m : Nat} (h1 : 1 ≤ m) (h2 : m < 2 ^ 23) :
    inContractLog (round32 false m (-149 + 23)) = true := by
  have hne : m ≠ 0 := by omega
  have hlog : Nat.log2 m < 23 := (Nat.log2_lt hne).mpr h2
  have hulp : ulpExp 23 8 m (-149 + 23) = Nat.log2 m - 149 := by
    rw [ulpExp, show minExp 23 8 = -149 by decide]
    omega
  have hscaled : scaledRne m (-149 + 23) (Nat.log2 m - 149) = m * 2 ^ (23 - Nat.log2 m) := by
    rw [scaledRne, if_pos (by omega)]
    congr 2
    omega
  have hlow : 2 ^ 23 ≤ m * 2 ^ (23 - Nat.log2 m) := by
    calc 2 ^ 23 = 2 ^ Nat.log2 m * 2 ^ (23 - Nat.log2 m) := by rw [← pow_add]; congr 1; omega
      _ ≤ m * 2 ^ (23 - Nat.log2 m) := Nat.mul_le_mul_right _ (Nat.log2_self_le hne)
  have hhigh : m * 2 ^ (23 - Nat.log2 m) < 2 ^ 24 := by
    calc m * 2 ^ (23 - Nat.log2 m) < 2 ^ (Nat.log2 m + 1) * 2 ^ (23 - Nat.log2 m) :=
          Nat.mul_lt_mul_of_pos_right Nat.lt_log2_self (by positivity)
      _ = 2 ^ 24 := by rw [← pow_add]; congr 1; omega
  have hmag : roundMag 23 8 m (-149 + 23) = Nat.log2 m * 2 ^ 23 + m * 2 ^ (23 - Nat.log2 m) := by
    simp only [roundMag, if_neg hne, hulp, hscaled, show minExp 23 8 = -149 by decide,
      show infMag 23 8 = 255 * 2 ^ 23 by decide]
    omega
  have hnat : (round32 false m (-149 + 23)).toNat = Nat.log2 m * 2 ^ 23 + m * 2 ^ (23 - Nat.log2 m) := by
    rw [round32, BitVec.toNat_append, hmag, BitVec.toNat_ofNat]
    simp
    omega
  rw [inContractLog_iff, hnat]
  omega

/-- Step 4 brings every magnitude of a regular `x` into the contract of LOG2 (45_host_dispatcher.md R188). -/
theorem hostNormalise_inContract (hx : zeroInfNan ix = false) :
    inContractLog (hostNormalise (mag32 ix)).1 = true ∧ fitsSint32 (hostNormalise (mag32 ix)).2 = true := by
  obtain ⟨hfin, hnz⟩ := (zeroInfNan_eq_false_iff ix).mp hx
  have hmag := mag32_fields ix
  have hexp := expField32_lt ix
  have hfrac := fracField32_lt ix
  rw [isFinite32_iff] at hfin
  rw [Ne, mag32_eq_zero_iff] at hnz
  rw [hostNormalise]
  split
  next hsub =>
    rw [BitVec.ult_eq_decide, decide_eq_true_eq, BitVec.toNat_ofNat] at hsub
    exact ⟨inContractLog_normalised (by omega) (by omega), (by decide : fitsSint32 (-23) = true)⟩
  next hnormal =>
    rw [BitVec.ult_eq_decide, decide_eq_true_eq, BitVec.toNat_ofNat] at hnormal
    exact ⟨(inContractLog_iff (mag32 ix)).mpr (by omega), (by decide : fitsSint32 0 = true)⟩

/-- Near zero every pattern is in the contract of EXP2 (45_host_dispatcher.md R190). -/
theorem inContractExp_of_not_far {z : Word64} (hfar : hostFarFromZero z = false) : inContractExp z = true := by
  have hbits : z.toNat / 2 ^ 47 % 2 ^ 16 < 0x80BF := by
    rw [← Bool.not_eq_true, hostFarFromZero, BitVec.ule_eq_decide, decide_eq_true_eq, BitVec.extractLsb'_toNat,
      Nat.shiftRight_eq_div_pow, not_le] at hfar
    exact hfar
  have hmag := toNat_mag64 z
  rw [inContractExp_iff]
  cases z.msb with
  | false => exact .inl ⟨rfl, by omega⟩
  | true => exact .inr ⟨rfl, by omega⟩

/-- Between the two thresholds every pattern is in the contract of EXP2 (45_host_dispatcher.md R191). -/
theorem inContractExp_of_key {z : Word64} (hhigh : key64 z ≤ key64 0x408FF80000000000#64)
    (hlow : key64 minus150 < key64 z) : inContractExp z = true := by
  rw [show key64 0x408FF80000000000#64 = 0x408FF80000000000 by decide] at hhigh
  rw [show key64 minus150 = -0x4062C00000000000 by decide] at hlow
  rw [inContractExp_iff]
  unfold key64 at hhigh hlow
  cases hm : z.msb with
  | false =>
    rw [hm, if_neg Bool.false_ne_true] at hhigh
    exact .inl ⟨rfl, by omega⟩
  | true =>
    rw [hm, if_pos rfl] at hlow
    exact .inr ⟨rfl, by omega⟩

theorem exists_hostFinish (hw : cfg.wf = true) (hup : key64 h.upper ≤ key64 0x408FF80000000000#64) (z : Word64)
    (sb : Bool) : ∃ r, hostFinish cfg h z sb = some r := by
  simp only [hostFinish]
  split
  next => exact ⟨_, rfl⟩
  next hover =>
    split
    next => exact ⟨_, rfl⟩
    next hunder =>
      have hc : inContractExp z = true := by
        cases hfar : hostFarFromZero z with
        | false => exact inContractExp_of_not_far hfar
        | true =>
          simp only [hfar, Bool.true_and, decide_eq_true_eq, not_lt, not_le] at hover hunder
          exact inContractExp_of_key (hover.trans hup) hunder
      obtain ⟨y, hy⟩ := exists_askBlock (i := .exp2 z sb) hw rfl hc
      exact ⟨_, by rw [hy, Option.map_some]⟩

theorem exists_hostCommon (hw : cfg.wf = true) (hup : key64 h.upper ≤ key64 0x408FF80000000000#64)
    (hx : zeroInfNan ix = false) (iy : Word32) (sb : Bool) : ∃ r, hostCommon cfg h (mag32 ix) iy sb = some r := by
  obtain ⟨hc, hfits⟩ := hostNormalise_inContract hx
  obtain ⟨logx, hlog⟩ := exists_askBlock (cfg := cfg) (i := .log2 _ _) hw hfits hc
  rw [hostCommon, hlog, Option.bind_some]
  exact exists_hostFinish hw hup _ sb

/-- Settles O53: each path of the host ends in a value, since every operand it sends is in contract. -/
theorem powerIsTotal : Obligations.PowerIsTotal := by
  intro cfg h ix iy hw hup
  cases hy : zeroInfNan iy with
  | true => exact ⟨_, powHost_of_ySpecial hw hy⟩
  | false =>
    cases hx : zeroInfNan ix with
    | true =>
      rw [powHost_of_xSpecial hw hy hx, hostSpecialX, askBlock_chkint hw]
      split
      · exact ⟨_, rfl⟩
      · exact ⟨_, rfl⟩
    | false =>
      rw [powHost_of_regular hw hy hx, hostStep3, askBlock_chkint hw, Option.bind_some]
      split
      · split
        · exact ⟨_, rfl⟩
        · exact exists_hostCommon hw hup hx iy _
      · exact exists_hostCommon hw hup hx iy _

end Sys2Proof.Machine
end
